-- ==== Sys2Proof/Word.lean ====
section
/-! DEFINITION. The word (limb) type of FIBCORE and the byte type of its decimal output. -/

namespace Sys2Proof

/-- A 32-bit unsigned storage unit, the radix-2^32 digit of a big integer (R10, R17). -/
abbrev Word := BitVec 32

/-- One character of the decimal output (R34, R171). -/
abbrev Byte := BitVec 8

end Sys2Proof
end

