-- ==== Sys2Proof/Config.lean ====
section
/-! DEFINITION. The implementation parameters of R11 and the free values the spec leaves open. -/

namespace Sys2Proof.Config

/-- Number of big-integer registers BR0 to BR15 (R11, fixed by the 4-bit register fields). -/
abbrev NREG : Nat := 16

/-- Word capacity of every big-integer register and FIB working register (R11, R23). -/
abbrev MAXW : Nat := 64

/-- Byte capacity of the decimal output buffer (R11, R34). -/
abbrev MAXD : Nat := 640

/-- Width of the FIB index register KARG (R11, R32). -/
abbrev KW : Nat := 32

/-- Size in bytes of the host register window (R50, R52). -/
abbrev WINDOW : Nat := 2048

/-- FREE VALUE (OPEN parameter of R11): which 2 KiB slot of the host's address space the platform
gives the register window. Nothing is known of it. Assumption log 3. -/
opaque baseSlot : Nat

/-- The platform parameter `BASE` of R52: 2048-byte aligned and otherwise unconstrained. -/
def BASE : Nat := WINDOW * baseSlot

/-- FREE VALUE: the 32-bit draw of R228, what a host read of DATA, DEC_LEN or the DEC window
returns while BUSY is 1. It is applied to the model's own draw counter. Assumption log 4. -/
opaque freeWord : Nat → Word

/-- FREE VALUE: the per-byte draw of R34 and R45, what a byte of DEC_BUF reads as before the first
successful TODEC or FIB. It is applied to the draw counter and the byte's lane. Assumption log 5. -/
opaque freeByte : Nat → Byte

end Sys2Proof.Config
end

