-- ==== Sys2Proof/Syntax.lean ====
section
/-! DEFINITION. The commands of FIBCORE as syntax: one constructor per row of the opcode map (R75). -/

namespace Sys2Proof

/-- A register index: BR0 to BR15, every value legal in every register field (R20, R74). -/
abbrev RegId := Fin 16

/-- The 19 commands (R75), operands in assembler order: destination, sources, immediate (R79).
The two immediates are plain numbers, whose ranges `Instr.wellFormed` checks. -/
inductive Instr where
  | nop
  | alloc  (rd : RegId)
  | free   (rd : RegId)
  | copy   (rd rs1 : RegId)
  | swap   (rd rs1 : RegId)
  | pushw  (rd : RegId)
  | rdw    (rs1 : RegId) (imm16 : Nat)
  | rdhdr  (rs1 : RegId)
  | bitlen (rs1 : RegId)
  | cmp    (rs1 rs2 : RegId)
  | add    (rd rs1 rs2 : RegId)
  | sub    (rd rs1 rs2 : RegId)
  | addm   (rd rs1 rs2 : RegId)
  | subm   (rd rs1 rs2 : RegId)
  | neg    (rd rs1 : RegId)
  | mul    (rd rs1 rs2 : RegId)
  | shl    (rd rs1 : RegId) (shamt : Nat)
  | todec  (rs1 : RegId)
  | fib    (rd : RegId)
deriving DecidableEq, Repr

end Sys2Proof
end

