-- ==== Sys2Proof/WellFormed.lean ====
section
/-! DEFINITION. Which terms of `Instr` are commands an assembler accepts (R79). -/

namespace Sys2Proof

/-- R79: "An assembler rejects a shift amount outside 0 to 31 and a word index outside 0 to 65535
rather than truncating". Register indexes are in range by their type (R74). -/
def Instr.wellFormed : Instr → Bool
  | .nop => true
  | .alloc _ => true
  | .free _ => true
  | .copy _ _ => true
  | .swap _ _ => true
  | .pushw _ => true
  | .rdw _ imm16 => decide (imm16 < 65536)
  | .rdhdr _ => true
  | .bitlen _ => true
  | .cmp _ _ => true
  | .add _ _ _ => true
  | .sub _ _ _ => true
  | .addm _ _ _ => true
  | .subm _ _ _ => true
  | .neg _ _ => true
  | .mul _ _ _ => true
  | .shl _ _ shamt => decide (shamt < 32)
  | .todec _ => true
  | .fib _ => true

end Sys2Proof
end

