-- ==== Sys2Proof/Decode.lean ====
section
/-! DEFINITION. Decoding a command word (R70 to R78), total on every 32-bit word, and the encoder
written from the same tables. -/

namespace Sys2Proof

/-! ### Fields (R71) -/

/-- `opcode = c[31:24]`. -/
def opcodeOf (c : Word) : BitVec 8 := c.extractLsb' 24 8

/-- `rd = c[23:20]`. -/
def rdOf (c : Word) : RegId := (c.extractLsb' 20 4).toFin

/-- `rs1 = c[19:16]`. -/
def rs1Of (c : Word) : RegId := (c.extractLsb' 16 4).toFin

/-- `rs2 = c[15:12]`. -/
def rs2Of (c : Word) : RegId := (c.extractLsb' 12 4).toFin

/-- `imm16 = zext_32(c[15:0])`, unscaled (R73). -/
def imm16Of (c : Word) : Nat := (c.extractLsb' 0 16).toNat

/-- `shamt = zext_32(c[4:0])` (R73). -/
def shamtOf (c : Word) : Nat := (c.extractLsb' 0 5).toNat

/-! ### Formats and the opcode map -/

/-- The eight formats of R72. -/
inductive Format where
  | N | D | S | DS | SS | R | SI | SH
deriving DecidableEq, Repr

/-- The mask of fixed bits of a format: the opcode and the must-be-zero bits (R72). -/
def Format.mask : Format → Word
  | .N => 0xFFFFFFFF
  | .D => 0xFF0FFFFF
  | .S => 0xFFF0FFFF
  | .DS => 0xFF00FFFF
  | .SS => 0xFFF00FFF
  | .R => 0xFF000FFF
  | .SI => 0xFFF00000
  | .SH => 0xFF00FFE0

/-- One row of the opcode map: its opcode, its format and the command its fields make. -/
structure OpRow where
  opcode : BitVec 8
  format : Format
  build  : Word → Instr

/-- `match` of R75: "the command word with every field 0". -/
def OpRow.matchWord (r : OpRow) : Word := r.opcode ++ 0#24

/-- The assigned opcodes (R75), lifecycle and comparison. -/
def opTableLow : List OpRow :=
  [ ⟨0x01, .N,  fun _ => .nop⟩,
    ⟨0x02, .D,  fun c => .alloc (rdOf c)⟩,
    ⟨0x03, .D,  fun c => .free (rdOf c)⟩,
    ⟨0x04, .DS, fun c => .copy (rdOf c) (rs1Of c)⟩,
    ⟨0x05, .DS, fun c => .swap (rdOf c) (rs1Of c)⟩,
    ⟨0x06, .D,  fun c => .pushw (rdOf c)⟩,
    ⟨0x07, .SI, fun c => .rdw (rs1Of c) (imm16Of c)⟩,
    ⟨0x08, .S,  fun c => .rdhdr (rs1Of c)⟩,
    ⟨0x09, .S,  fun c => .bitlen (rs1Of c)⟩,
    ⟨0x0A, .SS, fun c => .cmp (rs1Of c) (rs2Of c)⟩ ]

/-- The assigned opcodes (R75), arithmetic, conversion and the sequencer. -/
def opTableHigh : List OpRow :=
  [ ⟨0x10, .R,  fun c => .add (rdOf c) (rs1Of c) (rs2Of c)⟩,
    ⟨0x11, .R,  fun c => .sub (rdOf c) (rs1Of c) (rs2Of c)⟩,
    ⟨0x12, .R,  fun c => .addm (rdOf c) (rs1Of c) (rs2Of c)⟩,
    ⟨0x13, .R,  fun c => .subm (rdOf c) (rs1Of c) (rs2Of c)⟩,
    ⟨0x14, .DS, fun c => .neg (rdOf c) (rs1Of c)⟩,
    ⟨0x18, .R,  fun c => .mul (rdOf c) (rs1Of c) (rs2Of c)⟩,
    ⟨0x1C, .SH, fun c => .shl (rdOf c) (rs1Of c) (shamtOf c)⟩,
    ⟨0x20, .S,  fun c => .todec (rs1Of c)⟩,
    ⟨0x30, .D,  fun c => .fib (rdOf c)⟩ ]

/-- The whole opcode map of R75; every opcode it does not list is reserved (R77). -/
def opTable : List OpRow := opTableLow ++ opTableHigh

/-- Why a word is no command (R76, R77); either way it completes with ILLEGAL_CMD (R203). -/
inductive DecodeError where
  /-- `c[31:24]` is one of the 237 reserved opcodes. -/
  | reservedOpcode
  /-- The opcode is assigned and some must-be-zero bit of its format is 1. -/
  | mustBeZero
deriving DecidableEq, Repr

/-- R76: `opcode_row(c[31:24])`. -/
def opcodeRow (op : BitVec 8) : Option OpRow := opTable.find? fun r => r.opcode == op

/-- R76: find the opcode's row, check `c & mask == match`, extract the row's fields. -/
def decode (c : Word) : Except DecodeError Instr :=
  match opcodeRow (opcodeOf c) with
  | none => .error .reservedOpcode
  | some r => if c &&& r.format.mask = r.matchWord then .ok (r.build c) else .error .mustBeZero

/-! ### The encoder (R72, R75) -/

/-- A register index as its 4-bit field (R74). -/
def regField (r : RegId) : BitVec 4 := BitVec.ofFin r

/-- Formats N: `opcode 0[23:0]`. -/
def encodeN (op : BitVec 8) : Word := op ++ 0#24

/-- Format D: `opcode rd 0[19:0]`. -/
def encodeD (op : BitVec 8) (rd : RegId) : Word := op ++ regField rd ++ 0#20

/-- Format S: `opcode 0[23:20] rs1 0[15:0]`. -/
def encodeS (op : BitVec 8) (rs1 : RegId) : Word := op ++ 0#4 ++ regField rs1 ++ 0#16

/-- Format DS: `opcode rd rs1 0[15:0]`. -/
def encodeDS (op : BitVec 8) (rd rs1 : RegId) : Word := op ++ regField rd ++ regField rs1 ++ 0#16

/-- Format SS: `opcode 0[23:20] rs1 rs2 0[11:0]`. -/
def encodeSS (op : BitVec 8) (rs1 rs2 : RegId) : Word :=
  op ++ 0#4 ++ regField rs1 ++ regField rs2 ++ 0#12

/-- Format R: `opcode rd rs1 rs2 0[11:0]`. -/
def encodeR (op : BitVec 8) (rd rs1 rs2 : RegId) : Word :=
  op ++ regField rd ++ regField rs1 ++ regField rs2 ++ 0#12

/-- Format SI: `opcode 0[23:20] rs1 imm16`. -/
def encodeSI (op : BitVec 8) (rs1 : RegId) (imm16 : Nat) : Word :=
  op ++ 0#4 ++ regField rs1 ++ BitVec.ofNat 16 imm16

/-- Format SH: `opcode rd rs1 0[15:5] shamt`. -/
def encodeSH (op : BitVec 8) (rd rs1 : RegId) (shamt : Nat) : Word :=
  op ++ regField rd ++ regField rs1 ++ 0#11 ++ BitVec.ofNat 5 shamt

/-- The command word of a well-formed instruction (R72, R75). -/
def encode : Instr → Word
  | .nop => encodeN 0x01
  | .alloc rd => encodeD 0x02 rd
  | .free rd => encodeD 0x03 rd
  | .copy rd rs1 => encodeDS 0x04 rd rs1
  | .swap rd rs1 => encodeDS 0x05 rd rs1
  | .pushw rd => encodeD 0x06 rd
  | .rdw rs1 imm16 => encodeSI 0x07 rs1 imm16
  | .rdhdr rs1 => encodeS 0x08 rs1
  | .bitlen rs1 => encodeS 0x09 rs1
  | .cmp rs1 rs2 => encodeSS 0x0A rs1 rs2
  | .add rd rs1 rs2 => encodeR 0x10 rd rs1 rs2
  | .sub rd rs1 rs2 => encodeR 0x11 rd rs1 rs2
  | .addm rd rs1 rs2 => encodeR 0x12 rd rs1 rs2
  | .subm rd rs1 rs2 => encodeR 0x13 rd rs1 rs2
  | .neg rd rs1 => encodeDS 0x14 rd rs1
  | .mul rd rs1 rs2 => encodeR 0x18 rd rs1 rs2
  | .shl rd rs1 shamt => encodeSH 0x1C rd rs1 shamt
  | .todec rs1 => encodeS 0x20 rs1
  | .fib rd => encodeD 0x30 rd

/-! ### The host's probe -/

/-- The command word of an instruction whose table bits are `w`; a command is exactly one word (R70). -/
def tableWord (nbits w : Nat) : Word := BitVec.ofNat 32 (w % 2 ^ nbits)

/-- What `decode` reads from the word whose bits are `w`, numbered as the opcode table numbers them. -/
def decodeTableWord (nbits w : Nat) : Option Instr := (decode (tableWord nbits w)).toOption

end Sys2Proof
end

