-- ==== Sys2Proof/Machine/State.lean ====
section
/-! DEFINITION. Everything the spec gives the machine, as plain data (10_state.md), the host side
accesses it can be offered (20_memory.md), the reasons a step can stop, and the state after reset. -/

namespace Sys2Proof.Machine

/-! ### Big integers (R20 to R25) -/

/-- The content of a valid big-integer register: sign (true = negative) and its `len` words, `w[0]`
least significant (R16, R20). `len` is the list's length ("length == digits.count", R22). The words
at index `len` and above are not architectural (R21) and have no place here (log 6). -/
structure BigInt where
  sign  : Bool
  words : List Word
deriving DecidableEq, Repr

/-- The value +0: one word equal to 0, sign false (R22). -/
def BigInt.zero : BigInt := ⟨false, [0]⟩

/-! ### STATUS (R27) -/

/-- The result of a magnitude comparison, the three values CMPRES ever holds (R27, R122). -/
inductive CmpRes where
  | equal | greater | less
deriving DecidableEq, Repr

/-- The three command faults of R200. None of them stops the machine (R202). -/
inductive CmdFault where
  | illegalCmd | invalidOperand | capacity
deriving DecidableEq, Repr

/-- The fields of STATUS (R27). `errcode = none` is code 0. The reserved bits read 0 and have no
storage; the word a host reads is `Status.word`. -/
structure Status where
  busy    : Bool
  done    : Bool
  err     : Bool
  ovr     : Bool
  serr    : Bool
  cmpres  : CmpRes
  errcode : Option CmdFault
deriving DecidableEq, Repr

/-- STATUS = 0x00000000 (R45, R220). -/
def Status.reset : Status :=
  { busy := false, done := false, err := false, ovr := false, serr := false,
    cmpres := .equal, errcode := none }

/-! ### The FIB sequencer (R39, R43) -/

/-- The sequencer's state `fsm` (R43). -/
inductive Fsm where
  | idle | iter | render
deriving DecidableEq, Repr

/-- The hidden state of the FIB sequencer: `fsm`, the 5-bit index `i` (R43) and the eight working
registers (R39). -/
structure Sequencer where
  fsm : Fsm
  i   : Fin 32
  fk  : BigInt
  fk1 : BigInt
  ft  : BigInt
  fa  : BigInt
  fd0 : BigInt
  fs1 : BigInt
  fs2 : BigInt
  fd1 : BigInt
deriving DecidableEq, Repr

/-- The sequencer after reset: IDLE (R45). The index and the working registers are "unspecified (not
architectural)"; 0 and +0 are a DESIGN CHOICE no rule reads (log 2). -/
def Sequencer.reset : Sequencer :=
  { fsm := .idle, i := 0, fk := .zero, fk1 := .zero, ft := .zero, fa := .zero,
    fd0 := .zero, fs1 := .zero, fs2 := .zero, fd1 := .zero }

/-! ### DEC_BUF (R34) -/

/-- The bytes of DEC_BUF that a conversion has written, by index, strictly rising. An unlisted index
below MAXD has not been written since reset and holds no value the spec states (R34, R45). -/
abbrev Memory := List Host.Cell

/-! ### The outside world (R18, R58 to R62, R220, R230) -/

/-- Width of a host access; only 32-bit accesses are defined (R58). -/
inductive Width where
  | w8 | w16 | w32
deriving DecidableEq, Repr

/-- What a host access does. -/
inductive AccessKind where
  | read
  | write (v : Word)
deriving DecidableEq, Repr

/-- One host access that the platform routes to the register window (R52). -/
structure HostAccess where
  kind  : AccessKind
  addr  : Nat
  width : Width
deriving DecidableEq, Repr

/-- What can happen next outside the datapath. The list of events a state holds is the interleaving
still to come: the host's accesses in program order (R62), the instant the latency of the command in
flight is over (the open parameter LAT, R230) and assertions of `rst` (R220). -/
inductive Event where
  /-- The host makes an access. -/
  | access (a : HostAccess)
  /-- The latency of the command in flight ends here, so it completes (R226). -/
  | complete
  /-- `rst` is asserted and released (R220). -/
  | reset
  /-- A host access that overlaps the assertion or release of `rst` (R221). -/
  | accessDuringReset (a : HostAccess)
deriving DecidableEq, Repr

/-! ### The machine -/

/-- The state of FIBCORE (R45) and, below it, three fields of the model's own. -/
structure State where
  /-- BR0 to BR15: `none` is `valid = 0`, `some x` is `valid = 1` with content `x` (R20, R21). -/
  regs    : Vector (Option BigInt) 16
  /-- STATUS (R27). -/
  status  : Status
  /-- DATA, the word-transfer register (R31). -/
  data    : Word
  /-- KARG, the index of the next FIB command (R32). -/
  karg    : Word
  /-- DEC_LEN, the byte length of the decimal string (R33). -/
  decLen  : Word
  /-- DEC_BUF, the decimal string's bytes (R34). -/
  decBuf  : Memory
  /-- The command latch (R41). After a completion it keeps the completed word, a DESIGN CHOICE (log 18). -/
  latch   : Word
  /-- The FIB sequencer (R39, R43). -/
  seq     : Sequencer
  /-- MODEL'S OWN: the events still to come, next first (log 1). -/
  input   : List Event
  /-- MODEL'S OWN: the values host reads have returned, newest first (log 7). -/
  readLog : List Word
  /-- MODEL'S OWN: how many host reads have been served, the argument of the free values (log 4). -/
  draws   : Nat
deriving DecidableEq, Repr

/-- The state after reset (R45, R220): every register invalid, STATUS, DATA, KARG and DEC_LEN 0, the
sequencer IDLE, nothing written to DEC_BUF. The latch is "unspecified (not architectural)"; 0 is a
DESIGN CHOICE (log 2). The model's own fields start empty (log 1, 4, 7). -/
def State.reset : State :=
  { regs := Vector.replicate 16 none
    status := .reset
    data := 0
    karg := 0
    decLen := 0
    decBuf := []
    latch := 0
    seq := .reset
    input := []
    readLog := []
    draws := 0 }

/-- Why the machine can be stuck. A command fault is none of these: it is a next state (R202). -/
inductive Fault where
  /-- Raised by the turn of a machine with no command in flight and no event to come: "The core has
  no step while it is idle" (R18). Safe: the model goes on nowhere. -/
  | idle
deriving DecidableEq, Repr

/-- Why a step is outside the model. -/
inductive Refusal where
  /-- A command without a meaning, raised by an arm of `exec`; no arm raises it. Safe. -/
  | notModelled (mnemonic : String)
  /-- Raised by a host access of 8 or 16 bits, whose response "is not specified: a model refuses
  such an access" (R58). Safe. -/
  | narrowAccess
  /-- Raised by a host access at an offset that is not a multiple of 4 (R58). Safe. -/
  | misalignedAccess
  /-- Raised by a host access that overlaps the assertion or release of `rst`: "is not specified; a
  model refuses it" (R221). Safe. -/
  | accessDuringReset
deriving DecidableEq, Repr

end Sys2Proof.Machine
end

