-- ==== Sys2Proof/Machine/Flags.lean ====
section
/-! DEFINITION. Every computation on STATUS: the word a host reads (R27), and what issue (R225),
completion (R226), a fault (R202), a dropped write (R227), CTRL.CLR (R36) and CMP (R123) change. -/

namespace Sys2Proof.Machine

/-- CMPRES: 0 = equal, 1 = greater, 2 = less (R27, R123). -/
def CmpRes.code : CmpRes → BitVec 2
  | .equal => 0
  | .greater => 1
  | .less => 2

/-- ERRCODE: 1 ILLEGAL_CMD, 2 INVALID_OPERAND, 3 CAPACITY (R200). -/
def CmdFault.code : CmdFault → BitVec 4
  | .illegalCmd => 1
  | .invalidOperand => 2
  | .capacity => 3

/-- ERRCODE with 0 for no fault (R200). -/
def errcodeBits : Option CmdFault → BitVec 4
  | none => 0
  | some e => e.code

/-- The STATUS word, bit 31 on the left, reserved bits 0 (R27). -/
def Status.word (st : Status) : Word :=
  0#16 ++ errcodeBits st.errcode ++ 0#2 ++ st.cmpres.code ++ 0#3 ++
    BitVec.ofBool st.serr ++ BitVec.ofBool st.ovr ++ BitVec.ofBool st.err ++
    BitVec.ofBool st.done ++ BitVec.ofBool st.busy

/-- Issue: `BUSY <- 1, DONE <- 0, ERR <- 0, ERRCODE <- 0`; OVR, SERR and CMPRES unchanged (R225). -/
def Status.issue (st : Status) : Status :=
  { st with busy := true, done := false, err := false, errcode := none }

/-- Completion without a fault: `BUSY <- 0, DONE <- 1`, ERR and ERRCODE 0 (R226, R100). -/
def Status.finish (st : Status) : Status :=
  { st with busy := false, done := true, err := false, errcode := none }

/-- Completion with fault `e`: ERR, ERRCODE, the sticky SERR, DONE, and BUSY cleared (R202). -/
def Status.fault (e : CmdFault) (st : Status) : Status :=
  { st with busy := false, done := true, err := true, errcode := some e, serr := true }

/-- A host write dropped while BUSY: the sticky OVR, nothing else (R211, R227). -/
def Status.overrun (st : Status) : Status := { st with ovr := true }

/-- CTRL.CLR: OVR and SERR cleared (R36). -/
def Status.clearSticky (st : Status) : Status := { st with ovr := false, serr := false }

/-- CMP's result (R123). -/
def Status.setCmp (r : CmpRes) (st : Status) : Status := { st with cmpres := r }

end Sys2Proof.Machine
end

