-- ==== Sys2Proof/Machine/Operands.lean ====
section
/-! DEFINITION. The pseudocode primitives of R14 on magnitudes and big integers, and the operand forms
of the commands: a register's words, its sign, its length, its bit length. -/

namespace Sys2Proof.Machine

/-! ### Words and magnitudes -/

/-- `sum over j of w[j] * 2^(32*j)`, word 0 least significant (R16, R21). -/
def magOf : List Word → Nat
  | [] => 0
  | w :: ws => w.toNat + 2 ^ 32 * magOf ws

/-- The `n` low words of `m`: `word(m, 0), …, word(m, n-1)` (R14, R16). -/
def toWords : Nat → Nat → List Word
  | 0, _ => []
  | n + 1, m => BitVec.ofNat 32 m :: toWords n (m / 2 ^ 32)

/-- `bl(m)`: the least n with `m < 2^n`; `bl(0) = 0` (R14). -/
def bl (m : Nat) : Nat := if m = 0 then 0 else Nat.log2 m + 1

/-- `nw(m) = max(1, ceil(bl(m) / 32))` (R14). -/
def nw (m : Nat) : Nat := max 1 ((bl m + 31) / 32)

/-- `mk(s, m)`: the normalized value with magnitude m, length `nw(m)`, sign `s and (m != 0)` (R14). -/
def mkBig (s : Bool) (m : Nat) : BigInt := ⟨s && decide (m ≠ 0), toWords (nw m) m⟩

/-! ### A register's content -/

/-- `mag(x)` (R14). -/
def BigInt.mag (x : BigInt) : Nat := magOf x.words

/-- `len` (R20, R22). -/
def BigInt.len (x : BigInt) : Nat := x.words.length

/-- `w[j]` where `j < len`, else 0, as every loop of the spec reads a word. -/
def BigInt.word (x : BigInt) (j : Nat) : Word := x.words.getD j 0

/-- The most significant word, `w[len-1]`. -/
def BigInt.top (x : BigInt) : Word := x.words.getLastD 0

/-- `val(x)`: the signed value (R14). -/
def BigInt.val (x : BigInt) : Int := if x.sign then -(x.mag : Int) else x.mag

/-- `clz32`: leading zero bits of a non-zero word, 0 to 31 (R120). -/
def clz32 (w : Word) : Nat := 31 - Nat.log2 w.toNat

/-- R120: `bl(x)`, zero for a zero magnitude, else `32 * len - clz32(top)`. -/
def BigInt.bl (x : BigInt) : Nat := if x.mag = 0 then 0 else 32 * x.len - clz32 x.top

/-! ### Sizing (R205) -/

/-- Words needed for `n` bits: `ceil(n / 32)`. -/
def wordsFor (n : Nat) : Nat := (n + 31) / 32

/-- R205: a result whose provisional length exceeds MAXW raises CAPACITY before anything is written. -/
def sized {α : Type} (len : Nat) (x : α) : Except CmdFault α :=
  if len > Config.MAXW then .error .capacity else .ok x

/-- `while L > 1 and w[L-1] = 0: L <- L - 1` on the words most significant first (R136, R151). -/
def trimHigh : List Word → List Word
  | [] => []
  | [w] => [w]
  | w :: v :: ws => if w = 0 then trimHigh (v :: ws) else w :: v :: ws

/-- Drop all redundant leading zero words, never below one word (R136). -/
def trimAll (ws : List Word) : List Word := (trimHigh ws.reverse).reverse

/-- `if L > 1 and w[L-1] = 0: L <- L - 1`, the one-word trim of R135. -/
def trimOne (ws : List Word) : List Word :=
  if ws.length > 1 ∧ ws.getLastD 0 = 0 then ws.dropLast else ws

/-! ### The header word (R107) -/

/-- `{ sign [31], 1 [30], 0 [29:16], zext_16(len) [15:0] }`. -/
def BigInt.header (x : BigInt) : Word :=
  BitVec.ofBool x.sign ++ 1#1 ++ 0#14 ++ BitVec.ofNat 16 x.len

end Sys2Proof.Machine
end

