-- ==== Sys2Proof/Machine/Ops.lean ====
section
/-! DEFINITION. The shared operations over registers, DEC_BUF and STATUS: reading and writing a
register, the validity check, the decimal output, completing a command, and taking a fault. -/

namespace Sys2Proof.Machine

/-! ### Registers (R14, R204) -/

/-- `BR[r]`: `none` when `BR[r].valid = 0` (R14, R21). -/
def State.br (s : State) (r : RegId) : Option BigInt := s.regs[r]

/-- `BR[r] <- x`, all fields at once, valid <- 1 (R14). -/
def State.setBr (s : State) (r : RegId) (x : BigInt) : State :=
  { s with regs := s.regs.set r (some x) }

/-- `BR[r].valid <- 0` (R102). -/
def State.invalidate (s : State) (r : RegId) : State := { s with regs := s.regs.set r none }

/-- `need(r)`: the register's content, or INVALID_OPERAND when it is not valid (R204). -/
def State.need (s : State) (r : RegId) : Except CmdFault BigInt :=
  match s.br r with
  | some x => .ok x
  | none => .error .invalidOperand

/-- `DATA <- v` by a command (R31). -/
def State.setData (s : State) (v : Word) : State := { s with data := v }

/-! ### The decimal output (R34, R174) -/

/-- One byte of DEC_BUF; `none` where nothing has been written since reset (R34). -/
def Memory.read (m : Memory) (n : Nat) : Option Byte := m.lookup n

/-- The addresses of a memory rise strictly. -/
def risingFrom (lo : Nat) : Memory → Bool
  | [] => true
  | (a, _) :: m => decide (lo ≤ a) && risingFrom (a + 1) m

/-- The canonical form of DEC_BUF: indexes strictly rising, all below MAXD. An unlisted index reads
as no value, so no entry can equal it. -/
def Memory.wf (m : Memory) : Bool := risingFrom 0 m && m.all fun c => decide (c.1 < Config.MAXD)

/-- `n` bytes from index `a` on: the string's bytes, then 0x00 (R174). -/
def decCells : Nat → Nat → List Byte → Memory
  | 0, _, _ => []
  | n + 1, a, str => (a, str.headD 0) :: decCells n (a + 1) str.tail

/-- R174: `DEC_LEN <- |s|` and all MAXD bytes of DEC_BUF, zero beyond the string. -/
def State.writeDec (s : State) (str : List Byte) : State :=
  { s with decLen := BitVec.ofNat 32 str.length, decBuf := decCells Config.MAXD 0 str }

/-! ### Completion and faults (R201, R202, R226) -/

/-- Completion without a fault: the results of `s` become visible with `BUSY <- 0, DONE <- 1` (R226).
The latch keeps the completed word: DESIGN CHOICE, log 18. -/
def State.finish (s : State) : State := { s with status := s.status.finish }

/-- TAKING A FAULT, the one operation every fault goes through: "a fault ends the command at once;
there is no vector, handler, saved state, mode change or mask change. The state after a fault is the
state before the command except for STATUS" (R202, R207). There is no return from a fault: the next
issue clears ERR, ERRCODE and DONE (R209, `State.issue`). The latch keeps the completed word, which R41
leaves open: DESIGN CHOICE, log 18. -/
def State.takeFault (e : CmdFault) (s : State) : State := { s with status := s.status.fault e }

/-- End a command whose effects are `r`, computed from the state `s` before it: all of them at once,
or none and the fault (R201, R226). -/
def State.complete (s : State) (r : Except CmdFault State) : Host.Outcome State Fault Refusal :=
  match r with
  | .ok t => .next t.finish
  | .error e => .next (s.takeFault e)

/-! ### Issue (R225) -/

/-- Latch the command word and set BUSY, clear DONE, ERR and ERRCODE; nothing else (R225). -/
def State.issue (c : Word) (s : State) : State :=
  { s with latch := c, status := s.status.issue }

/-- A dropped host write: OVR and nothing else (R227). -/
def State.overrun (s : State) : State := { s with status := s.status.overrun }

end Sys2Proof.Machine
end

