-- ==== Sys2Proof/Machine/Compare.lean ====
section
/-! DEFINITION. Bit length and magnitude comparison (41_compare.md): BITLEN, CMP. -/

namespace Sys2Proof.Machine

/-- The word loop of R122, most significant word first, unsigned. -/
def cmpWords : List Word → List Word → CmpRes
  | a :: as, b :: bs => if a > b then .greater else if a < b then .less else cmpWords as bs
  | _, _ => .equal

/-- `cmpmag(a, b)` (R122): word count first, then the words from the top; signs ignored. -/
def cmpmag (a b : BigInt) : CmpRes :=
  if a.len > b.len then .greater
  else if a.len < b.len then .less
  else cmpWords a.words.reverse b.words.reverse

/-- BITLEN rs1 (R121): `DATA <- zext_32(bl(BR[rs1]))`. -/
def execBitlen (rs1 : RegId) (s : State) : Host.Outcome State Fault Refusal :=
  s.complete do
    let x ← s.need rs1
    pure (s.setData (BitVec.ofNat 32 x.bl))

/-- CMP rs1, rs2 (R123): CMPRES. -/
def execCmp (rs1 rs2 : RegId) (s : State) : Host.Outcome State Fault Refusal :=
  s.complete do
    let a ← s.need rs1
    let b ← s.need rs2
    pure { s with status := s.status.setCmp (cmpmag a b) }

end Sys2Proof.Machine
end

