-- ==== Sys2Proof/Machine/AddSub.lean ====
section
/-! DEFINITION. Addition, subtraction and negation (42_addsub.md): ADD, SUB, ADDM, SUBM, NEG. -/

namespace Sys2Proof.Machine

/-! ### Datapath functions (R135 to R139) -/

/-- The loop of R135 over `n` words: `t <- a.w[j] + b.w[j] + carry`. -/
def addLoop : Nat → List Word → List Word → Nat → List Word
  | 0, _, _, _ => []
  | n + 1, as, bs, carry =>
    let t := (as.headD 0).toNat + (bs.headD 0).toNat + carry
    BitVec.ofNat 32 t :: addLoop n as.tail bs.tail (t / 2 ^ 32)

/-- The provisional length of R135: `ceil((max(bl(a), bl(b)) + 1) / 32)`. -/
def addLength (a b : BigInt) : Nat := wordsFor (max a.bl b.bl + 1)

/-- `addmag(a, b)` (R135). -/
def addmag (a b : BigInt) : Except CmdFault Nat :=
  sized (addLength a b) (magOf (trimOne (addLoop (addLength a b) a.words b.words 0)))

/-- The loop of R136 over `n` words, with a signed accumulator:
`t <- a.w[j] - b.w[j] - borrow`, plus 2^32 and a borrow when negative. -/
def subLoop : Nat → List Word → List Word → Nat → List Word
  | 0, _, _, _ => []
  | n + 1, as, bs, borrow =>
    let t : Int := (as.headD 0).toNat - (bs.headD 0).toNat - borrow
    if t < 0 then BitVec.ofInt 32 (t + 2 ^ 32) :: subLoop n as.tail bs.tail 1
    else BitVec.ofInt 32 t :: subLoop n as.tail bs.tail 0

/-- `submag(a, b)` (R136): INVALID_OPERAND when `mag(a) < mag(b)`, never CAPACITY. -/
def submag (a b : BigInt) : Except CmdFault Nat :=
  if a.mag < b.mag then .error .invalidOperand
  else .ok (magOf (trimAll (subLoop (max a.len b.len) a.words b.words 0)))

/-- `neg(x)` (R137): the sign flips, zero's stays false. -/
def neg (x : BigInt) : BigInt := mkBig (!x.sign) x.mag

/-- `sadd(a, b)` (R138). -/
def sadd (a b : BigInt) : Except CmdFault BigInt :=
  if a.sign = b.sign then do
    let m ← addmag a b
    pure (mkBig a.sign m)
  else
    match cmpmag a b with
    | .greater => do
      let m ← submag a b
      pure (mkBig a.sign m)
    | .less => do
      let m ← submag b a
      pure (mkBig b.sign m)
    | .equal => pure (mkBig false 0)

/-- `ssub(a, b) = sadd(a, neg(b))` (R139). -/
def ssub (a b : BigInt) : Except CmdFault BigInt := sadd a (neg b)

/-! ### Commands (R130 to R134) -/

/-- ADD rd, rs1, rs2 (R133): signed addition. -/
def execAdd (rd rs1 rs2 : RegId) (s : State) : Host.Outcome State Fault Refusal :=
  s.complete do
    let a ← s.need rs1
    let b ← s.need rs2
    let _ ← s.need rd
    let x ← sadd a b
    pure (s.setBr rd x)

/-- SUB rd, rs1, rs2 (R134): signed subtraction. -/
def execSub (rd rs1 rs2 : RegId) (s : State) : Host.Outcome State Fault Refusal :=
  s.complete do
    let a ← s.need rs1
    let b ← s.need rs2
    let _ ← s.need rd
    let x ← ssub a b
    pure (s.setBr rd x)

/-- ADDM rd, rs1, rs2 (R130): magnitude sum, non-negative. -/
def execAddm (rd rs1 rs2 : RegId) (s : State) : Host.Outcome State Fault Refusal :=
  s.complete do
    let a ← s.need rs1
    let b ← s.need rs2
    let _ ← s.need rd
    let m ← addmag a b
    pure (s.setBr rd (mkBig false m))

/-- SUBM rd, rs1, rs2 (R131): magnitude difference, its precondition checked. -/
def execSubm (rd rs1 rs2 : RegId) (s : State) : Host.Outcome State Fault Refusal :=
  s.complete do
    let a ← s.need rs1
    let b ← s.need rs2
    let _ ← s.need rd
    let m ← submag a b
    pure (s.setBr rd (mkBig false m))

/-- NEG rd, rs1 (R132). -/
def execNeg (rd rs1 : RegId) (s : State) : Host.Outcome State Fault Refusal :=
  s.complete do
    let x ← s.need rs1
    let _ ← s.need rd
    pure (s.setBr rd (neg x))

end Sys2Proof.Machine
end

