-- ==== Sys2Proof/Machine/Decimal.lean ====
section
/-! DEFINITION. Decimal conversion (45_decimal.md): TODEC. -/

namespace Sys2Proof.Machine

/-- One double-and-add step of R172 over the digits, least significant first:
`t <- 2 * Dg[d] + c; Dg[d] <- t mod 10; c <- floor(t / 10)`. -/
def doubleAdd : List Nat → Nat → List Nat
  | [], _ => []
  | d :: ds, c => ((2 * d + c) % 10) :: doubleAdd ds ((2 * d + c) / 10)

/-- `bit b of mag(x)`: word `floor(b/32)`, bit `b mod 32` (R172). -/
def BigInt.bit (x : BigInt) (b : Nat) : Nat := ((x.word (b / 32)).getLsbD (b % 32)).toNat

/-- The loop of R172 over bits `n-1` down to 0. -/
def decLoop (x : BigInt) : Nat → List Nat → List Nat
  | 0, dg => dg
  | b + 1, dg => decLoop x b (doubleAdd dg (x.bit b))

/-- The working digits of R172, `ceil(n * log10(2)) + 2`, with log10(2) taken as 0.30103 from above;
R172 says the size is not architectural (log 8). -/
def decDigits (n : Nat) : Nat := (n * 30103 + 99999) / 100000 + 2

/-- The trim of R172, most significant digit first, keeping at least one digit. -/
def trimDigits : List Nat → List Nat
  | [] => []
  | [d] => [d]
  | d :: e :: ds => if d = 0 then trimDigits (e :: ds) else d :: e :: ds

/-- ASCII code of a digit: `0x30 + d` (R171). -/
def digitChar (d : Nat) : Byte := BitVec.ofNat 8 (0x30 + d)

/-- `dec(x)` (R171, R172): "-" when the sign is true, then the digits, most significant first. -/
def dec (x : BigInt) : List Byte :=
  (if x.sign then [0x2D] else []) ++
    (trimDigits (decLoop x x.bl (List.replicate (decDigits x.bl) 0)).reverse).map digitChar

/-- TODEC rs1 (R170): the decimal string into DEC_LEN and DEC_BUF. -/
def execTodec (rs1 : RegId) (s : State) : Host.Outcome State Fault Refusal :=
  s.complete do
    let x ← s.need rs1
    pure (s.writeDec (dec x))

end Sys2Proof.Machine
end

