-- ==== Sys2Proof/Machine/Multiply.lean ====
section
/-! DEFINITION. Multiplication (43_multiply.md): MUL. -/

namespace Sys2Proof.Machine

/-- The inner while loop of R151: add `c` into the buffer from its first word on, carrying upward
until the carry is 0. -/
def addCarry : List Word → Nat → List Word
  | [], _ => []
  | w :: ws, c =>
    if c = 0 then w :: ws
    else
      let t := w.toNat + c % 2 ^ 32
      BitVec.ofNat 32 t :: addCarry ws (c / 2 ^ 32 + t / 2 ^ 32)

/-- Add `p` into the buffer at word `k` (R151). -/
def addAt : List Word → Nat → Nat → List Word
  | ws, 0, p => addCarry ws p
  | [], _ + 1, _ => []
  | w :: ws, k + 1, p => w :: addAt ws k p

/-- The loop of R151 over the words of `b`: `p <- a.w[i] * b.w[j]` added at word `k = i + j`, with
the corrected indexing (R153). -/
def mulRow (ai : Word) : List Word → Nat → List Word → List Word
  | [], _, t => t
  | bj :: bs, k, t => mulRow ai bs (k + 1) (addAt t k (ai.toNat * bj.toNat))

/-- The loop of R151 over the words of `a`. -/
def mulLoop (bs : List Word) : List Word → Nat → List Word → List Word
  | [], _, t => t
  | ai :: as, i, t => mulLoop bs as (i + 1) (mulRow ai bs i t)

/-- The provisional length of R151: `max(1, ceil((bl(a) + bl(b)) / 32))`. -/
def mulLength (a b : BigInt) : Nat := max 1 (wordsFor (a.bl + b.bl))

/-- `mulmag(a, b)` (R151), always through the temporary buffer (R152). -/
def mulmag (a b : BigInt) : Except CmdFault Nat :=
  sized (mulLength a b)
    (magOf (trimAll (mulLoop b.words a.words 0 (List.replicate (mulLength a b) 0))))

/-- `mul(a, b)` (R154): the sign is the XOR of the signs, a zero product positive. -/
def mul (a b : BigInt) : Except CmdFault BigInt := do
  let m ← mulmag a b
  pure (mkBig (a.sign != b.sign) m)

/-- MUL rd, rs1, rs2 (R150). -/
def execMul (rd rs1 rs2 : RegId) (s : State) : Host.Outcome State Fault Refusal :=
  s.complete do
    let a ← s.need rs1
    let b ← s.need rs2
    let _ ← s.need rd
    let x ← mul a b
    pure (s.setBr rd x)

end Sys2Proof.Machine
end

