-- ==== Sys2Proof/Machine/Shift.lean ====
section
/-! DEFINITION. Left shift by 0 to 31 bits (44_shift.md): SHL. -/

namespace Sys2Proof.Machine

/-- The words of R161, lowest first: `(w[i] << s) mod 2^32 or (w[i-1] >> (32 - s))`, where `below` is
`w[i-1]`, 0 below the lowest word. -/
def shlLoop (s : Nat) : Nat → List Word → Word → List Word
  | 0, _, _ => []
  | n + 1, ws, below =>
    ((ws.headD 0) <<< s ||| below >>> (32 - s)) :: shlLoop s n ws.tail (ws.headD 0)

/-- The provisional length of R161: one more word when `s` exceeds the leading zero bits. -/
def shlLength (x : BigInt) (s : Nat) : Nat :=
  x.len + (if s > 32 * x.len - x.bl then 1 else 0)

/-- `shl(x, s)` for `s` in 1 to 31 (R161). -/
def shl (x : BigInt) (s : Nat) : Except CmdFault BigInt :=
  sized (shlLength x s) (mkBig x.sign (magOf (shlLoop s (shlLength x s) x.words 0)))

/-- SHL rd, rs1, shamt (R160): both registers are checked; shamt = 0 writes nothing. -/
def execShl (rd rs1 : RegId) (shamt : Nat) (s : State) : Host.Outcome State Fault Refusal :=
  s.complete do
    let x ← s.need rs1
    let _ ← s.need rd
    if shamt = 0 then pure s
    else do
      let y ← shl x shamt
      pure (s.setBr rd y)

end Sys2Proof.Machine
end

