-- ==== Sys2Proof/Machine/Fib.lean ====
section
/-! DEFINITION. The fast-doubling Fibonacci sequencer (46_fib.md) and FIB. -/

namespace Sys2Proof.Machine

/-! ### The sequencer's arrows (R185) -/

/-- The arrows out of IDLE: the base cases for `k <= 2` (R181), the initialization for `k > 2` with
the first bit to consume `bl(k) - 2` (R182). -/
def Sequencer.start (k : Nat) (q : Sequencer) : Sequencer :=
  if k ≤ 2 then { q with fsm := .render, fk := mkBig false (if k = 0 then 0 else 1) }
  else { q with fsm := .iter, i := Fin.ofNat 32 (bl k - 2), fk := mkBig false 1, fk1 := mkBig false 1 }

/-- The body of R183: every working register but FK and FK1, in the order the rule writes them. -/
def Sequencer.body (q : Sequencer) : Except CmdFault Sequencer := do
  let ft ← shl q.fk1 1
  let fa ← ssub ft q.fk
  let fd0 ← mul q.fk fa
  let fs1 ← mul q.fk q.fk
  let fs2 ← mul q.fk1 q.fk1
  let fd1 ← sadd fs1 fs2
  pure { q with ft := ft, fa := fa, fd0 := fd0, fs1 := fs1, fs2 := fs2, fd1 := fd1 }

/-- The selection of R184 by bit `i` of k. -/
def Sequencer.select (bit : Bool) (q : Sequencer) : Except CmdFault Sequencer :=
  if bit then do
    let u ← sadd q.fd0 q.fd1
    pure { q with fk := q.fd1, fk1 := u }
  else pure { q with fk := q.fd0, fk1 := q.fd1 }

/-- `if i = 0: fsm <- RENDER else: i <- i - 1` (R185). -/
def Sequencer.advance (q : Sequencer) : Sequencer :=
  if q.i.val = 0 then { q with fsm := .render } else { q with i := Fin.ofNat 32 (q.i.val - 1) }

/-- One ITER arrow: the body, the selection by `k[i]`, the next bit (R183 to R185). -/
def Sequencer.iteration (k : Nat) (q : Sequencer) : Except CmdFault Sequencer := do
  let q1 ← q.body
  let q2 ← q1.select (k.testBit q.i.val)
  pure q2.advance

/-- At most `n` ITER arrows, as long as the sequencer is in ITER. -/
def Sequencer.iterate (k : Nat) : Nat → Sequencer → Except CmdFault Sequencer
  | 0, q => .ok q
  | n + 1, q =>
    match q.fsm with
    | .iter => do
      let q' ← q.iteration k
      Sequencer.iterate k n q'
    | .idle => .ok q
    | .render => .ok q

/-- The sequencer from IDLE to RENDER: at most `KW - 1 = 31` iterations (R230). -/
def Sequencer.run (k : Nat) (q : Sequencer) : Except CmdFault Sequencer :=
  (q.start k).iterate k (Config.KW - 1)

/-- The RENDER arrow: `BR[rd] <- FK`, the string per R174, `fsm <- IDLE` (R185, R187). -/
def State.render (s : State) (rd : RegId) (q : Sequencer) : State :=
  { (s.setBr rd q.fk).writeDec (dec q.fk) with seq := { q with fsm := .idle } }

/-- FIB rd (R180): `need(rd)`, then the sequencer on KARG. On CAPACITY nothing but STATUS changes and
the sequencer is IDLE (R185, R186); the hidden working registers keep their old contents (log 9). -/
def execFib (rd : RegId) (s : State) : Host.Outcome State Fault Refusal :=
  s.complete do
    let _ ← s.need rd
    let q ← s.seq.run s.karg.toNat
    pure (s.render rd q)

end Sys2Proof.Machine
end

