-- ==== Sys2Proof/Machine/Lifecycle.lean ====
section
/-! DEFINITION. Lifecycle and word-transfer commands (40_lifecycle.md): NOP, ALLOC, FREE, COPY, SWAP,
PUSHW, RDW, RDHDR. -/

namespace Sys2Proof.Machine

/-- NOP (R100): the completion fields only. -/
def execNop (s : State) : Host.Outcome State Fault Refusal := s.complete (.ok s)

/-- ALLOC rd (R101): `BR[rd] <- mk(false, zext_32(DATA))`; rd need not be valid. -/
def execAlloc (rd : RegId) (s : State) : Host.Outcome State Fault Refusal :=
  s.complete (.ok (s.setBr rd (mkBig false s.data.toNat)))

/-- FREE rd (R102): `need(rd); BR[rd].valid <- 0`. -/
def execFree (rd : RegId) (s : State) : Host.Outcome State Fault Refusal :=
  s.complete do
    let _ ← s.need rd
    pure (s.invalidate rd)

/-- COPY rd, rs1 (R103). -/
def execCopy (rd rs1 : RegId) (s : State) : Host.Outcome State Fault Refusal :=
  s.complete do
    let x ← s.need rs1
    let _ ← s.need rd
    pure (s.setBr rd x)

/-- SWAP rd, rs1 (R104): one atomic exchange of the values read before any write. -/
def execSwap (rd rs1 : RegId) (s : State) : Host.Outcome State Fault Refusal :=
  s.complete do
    let x ← s.need rs1
    let y ← s.need rd
    pure ((s.setBr rs1 y).setBr rd x)

/-- R105: `m <- mag * 2^32 + DATA`, CAPACITY when `nw(m) > MAXW`, the sign kept. -/
def pushWord (x : BigInt) (w : Word) : Except CmdFault BigInt :=
  sized (nw (x.mag * 2 ^ 32 + w.toNat)) (mkBig x.sign (x.mag * 2 ^ 32 + w.toNat))

/-- PUSHW rd (R105). -/
def execPushw (rd : RegId) (s : State) : Host.Outcome State Fault Refusal :=
  s.complete do
    let x ← s.need rd
    let y ← pushWord x s.data
    pure (s.setBr rd y)

/-- RDW rs1, imm16 (R106): one word of the magnitude, 0 at or beyond `len`. -/
def execRdw (rs1 : RegId) (imm16 : Nat) (s : State) : Host.Outcome State Fault Refusal :=
  s.complete do
    let x ← s.need rs1
    pure (s.setData (x.word imm16))

/-- RDHDR rs1 (R107): the header word, 0 for an invalid register, which does not fault. -/
def execRdhdr (rs1 : RegId) (s : State) : Host.Outcome State Fault Refusal :=
  s.complete (.ok (s.setData
    (match s.br rs1 with
    | some x => x.header
    | none => 0)))

end Sys2Proof.Machine
end

