-- ==== Sys2Proof/Machine/Dispatch.lean ====
section
/-! DEFINITION. One arm per command: the meaning of each (R75 names each command's rule). -/

namespace Sys2Proof.Machine

-- Executing a decoded command is its completion: one atomic transition (R226).
def exec (i : Instr) (s : State) : Host.Outcome State Fault Refusal :=
  match i with
  | .nop => Sys2Proof.Machine.execNop s
  | .alloc rd => Sys2Proof.Machine.execAlloc rd s
  | .free rd => Sys2Proof.Machine.execFree rd s
  | .copy rd rs1 => Sys2Proof.Machine.execCopy rd rs1 s
  | .swap rd rs1 => Sys2Proof.Machine.execSwap rd rs1 s
  | .pushw rd => Sys2Proof.Machine.execPushw rd s
  | .rdw rs1 imm16 => Sys2Proof.Machine.execRdw rs1 imm16 s
  | .rdhdr rs1 => Sys2Proof.Machine.execRdhdr rs1 s
  | .bitlen rs1 => Sys2Proof.Machine.execBitlen rs1 s
  | .cmp rs1 rs2 => Sys2Proof.Machine.execCmp rs1 rs2 s
  | .add rd rs1 rs2 => Sys2Proof.Machine.execAdd rd rs1 rs2 s
  | .sub rd rs1 rs2 => Sys2Proof.Machine.execSub rd rs1 rs2 s
  | .addm rd rs1 rs2 => Sys2Proof.Machine.execAddm rd rs1 rs2 s
  | .subm rd rs1 rs2 => Sys2Proof.Machine.execSubm rd rs1 rs2 s
  | .neg rd rs1 => Sys2Proof.Machine.execNeg rd rs1 s
  | .mul rd rs1 rs2 => Sys2Proof.Machine.execMul rd rs1 rs2 s
  | .shl rd rs1 shamt => Sys2Proof.Machine.execShl rd rs1 shamt s
  | .todec rs1 => Sys2Proof.Machine.execTodec rs1 s
  | .fib rd => Sys2Proof.Machine.execFib rd s

end Sys2Proof.Machine
end

