-- ==== Sys2Proof/Machine/Window.lean ====
section
/-! DEFINITION. The host register window (20_memory.md): what a host access does, and reset. -/

namespace Sys2Proof.Machine

/-! ### Host accesses (R14, R52, R58) -/

/-- `HostRead(off)`: a 32-bit read of the window (R14). -/
def hostRead (off : Nat) : Event := .access ⟨.read, Config.BASE + off, .w32⟩

/-- `HostWrite(off, v)`: a 32-bit write of the window (R14). -/
def hostWrite (off : Nat) (v : Word) : Event := .access ⟨.write v, Config.BASE + off, .w32⟩

/-- "FIBCORE decodes only offset bits [10:0] of an access that the platform routes to it" (R52). -/
def HostAccess.offset (a : HostAccess) : Nat := a.addr % Config.WINDOW

/-! ### Reads (R53, R55, R228) -/

/-- INFO: `{0, NREG, MAXW}` (R37). -/
def infoWord : Word := BitVec.ofNat 8 0 ++ BitVec.ofNat 8 Config.NREG ++ BitVec.ofNat 16 Config.MAXW

/-- INFO2: MAXD (R38). -/
def info2Word : Word := BitVec.ofNat 16 0 ++ BitVec.ofNat 16 Config.MAXD

/-- `B(n)` of R55: a byte of DEC_BUF, a free value while nothing has been written there (R34), and
0x00 from MAXD on. -/
def State.decByte (s : State) (n : Nat) : Byte :=
  if n < Config.MAXD then (s.decBuf.read n).getD (Config.freeByte (4 * s.draws + n % 4)) else 0

/-- The DEC window word at byte index `n`, little-endian: `{B(n+3), B(n+2), B(n+1), B(n)}` (R55, R56). -/
def State.decWord (s : State) (n : Nat) : Word :=
  s.decByte (n + 3) ++ s.decByte (n + 2) ++ s.decByte (n + 1) ++ s.decByte n

/-- A value the command in flight may be writing: unspecified while BUSY (R228). -/
def State.whenIdle (s : State) (v : Word) : Word :=
  if s.status.busy then Config.freeWord s.draws else v

/-- What a 32-bit read of offset `off` returns (R53). -/
def State.readValue (s : State) (off : Nat) : Word :=
  if off = 0x004 then s.status.word
  else if off = 0x008 then s.whenIdle s.data
  else if off = 0x00C then s.karg
  else if off = 0x010 then s.whenIdle s.decLen
  else if off = 0x018 then infoWord
  else if off = 0x01C then info2Word
  else if 0x400 ≤ off then s.whenIdle (s.decWord (off - 0x400))
  else 0

/-- Serve a read: the value goes to the host; nothing of FIBCORE changes (R59). -/
def State.serveRead (s : State) (off : Nat) : State :=
  { s with readLog := s.readValue off :: s.readLog, draws := s.draws + 1 }

/-! ### Writes (R35, R36, R53, R227) -/

/-- A write of CMD, DATA or KARG: dropped with OVR while BUSY, else its effect (R227). -/
def State.unlessBusy (s t : State) : State := if s.status.busy then s.overrun else t

/-- A write of CTRL: bit 0 clears OVR and SERR, busy or not; the other bits are ignored (R36). -/
def State.writeCtrl (s : State) (v : Word) : State :=
  if v.getLsbD 0 then { s with status := s.status.clearSticky } else s

/-- Serve a 32-bit write of `v` to offset `off` (R53). -/
def State.serveWrite (s : State) (off : Nat) (v : Word) : State :=
  if off = 0x000 then s.unlessBusy (s.issue v)
  else if off = 0x008 then s.unlessBusy { s with data := v }
  else if off = 0x00C then s.unlessBusy { s with karg := v }
  else if off = 0x014 then s.writeCtrl v
  else s

/-- Serve one host access: refused unless it is 32 bits wide and aligned (R58). -/
def State.serveAccess (s : State) (a : HostAccess) : Host.Outcome State Fault Refusal :=
  if a.width ≠ .w32 then .refused .narrowAccess
  else if a.offset % 4 ≠ 0 then .refused .misalignedAccess
  else
    match a.kind with
    | .read => .next (s.serveRead a.offset)
    | .write v => .next (s.serveWrite a.offset v)

/-! ### Reset (R220) -/

/-- `rst`: every piece of FIBCORE's state takes its reset value, a command in flight is abandoned. The
events to come, the values already read and the draw counter are not FIBCORE's and stay. -/
def State.assertReset (s : State) : State :=
  { State.reset with input := s.input, readLog := s.readLog, draws := s.draws }

end Sys2Proof.Machine
end

