-- ==== Sys2Proof/Machine/Turn.lean ====
section
/-! DEFINITION. Whose turn it is: the core completes the command in flight, or one event of the outside
world is served (R18, R62, R226). -/

namespace Sys2Proof.Machine

/-- Complete the command in flight: decode the latched word (R76) and run it, or complete it with
ILLEGAL_CMD, raised before any register is examined (R203). -/
def runLatched (s : State) : Host.Outcome State Fault Refusal :=
  match decode s.latch with
  | .ok i => exec i s
  | .error _ => .next (s.takeFault .illegalCmd)

/-- Serve the event `e`. A `complete` with no command in flight is no step of the core (R18): it is
passed over. -/
def State.serve (s : State) (e : Event) : Host.Outcome State Fault Refusal :=
  match e with
  | .access a => s.serveAccess a
  | .complete => if s.status.busy then runLatched s else .next s
  | .reset => .next s.assertReset
  | .accessDuringReset _ => .refused .accessDuringReset

/-- The machine's next turn: the next event, taken off the list. With none to come, the command in
flight completes, since its latency is finite (R230), and an idle machine has no step (R18). -/
def State.turn (s : State) : Host.Outcome State Fault Refusal :=
  match s.input with
  | [] => if s.status.busy then runLatched s else .fault .idle
  | e :: es => ({ s with input := es } : State).serve e

/-- Place the command word `c` so that the next turn completes it: issued (R225), its latency over at
once. -/
def State.placeCommand (s : State) (c : Word) : State :=
  let t := s.issue c
  { t with input := .complete :: t.input }

end Sys2Proof.Machine
end

