-- ==== Sys2Proof/Machine/Step.lean ====
section
/-! DEFINITION. One step of the machine, and where the host's probe places a command. -/

namespace Sys2Proof.Machine

/-- One step: the machine's next turn. -/
def step (s : State) : Host.Outcome State Fault Refusal := s.turn

/-- FIBCORE fetches nothing (R26): a command comes to run by a host write to CMD, which latches it and
sets BUSY (R225). This stands for that write, with completion next (log 1). -/
def State.withFetchWord (s : State) (nbits w : Nat) : State := s.placeCommand (tableWord nbits w)

end Sys2Proof.Machine
end

