-- ==== Sys2Proof/Safety.lean ====
section
/-! DEFINITION. The terms claims about FIBCORE use: normalized registers, the machine's invariant, what
a host can observe, and independent renderings of the spec's outcomes (STATUS after a completion, the
value of an integer as a register, the decimal string of a number). -/

namespace Sys2Proof.Machine

/-! ### Normalized registers (R22, R23) -/

/-- R22 and R23: `1 <= len <= MAXW`; `len = 1 or w[len-1] != 0`; `mag = 0 implies sign = false`. -/
abbrev BigInt.Norm (x : BigInt) : Prop :=
  1 ≤ x.len ∧ x.len ≤ Config.MAXW ∧ (x.len = 1 ∨ x.top ≠ 0) ∧ (x.mag = 0 → x.sign = false)

/-! ### The invariant -/

/-- STATUS fields that go together: an issue clears DONE, ERR and ERRCODE for as long as BUSY is 1
(R225); ERR is 1 exactly when ERRCODE is not 0 (R202, R226); ERR describes a completed command (R29). -/
abbrev Status.Consistent (st : Status) : Prop :=
  (st.busy = true → st.done = false ∧ st.err = false ∧ st.errcode = none) ∧
  (st.err = st.errcode.isSome) ∧ (st.err = true → st.done = true)

/-- DEC_BUF and DEC_LEN (R33, R34, R174): nothing converted since reset, or all MAXD bytes written,
the length 1 to MAXD and 0x00 beyond it. -/
def State.DecConsistent (s : State) : Prop :=
  (s.decBuf = [] ∧ s.decLen = 0) ∨
  ((∀ n, n < Config.MAXD → (s.decBuf.read n).isSome = true) ∧
    1 ≤ s.decLen.toNat ∧ s.decLen.toNat ≤ Config.MAXD ∧
    ∀ n, s.decLen.toNat ≤ n → n < Config.MAXD → s.decBuf.read n = some 0)

/-- The working registers are normalized whenever written (R39), and at reset by the model's choice of +0
(log 2). The sequencer is IDLE between commands (R43), and between any two steps by the model's rendering
of a FIB command as one completion (log 11). -/
abbrev Sequencer.Resting (q : Sequencer) : Prop :=
  q.fsm = .idle ∧ q.fk.Norm ∧ q.fk1.Norm ∧ q.ft.Norm ∧ q.fa.Norm ∧ q.fd0.Norm ∧ q.fs1.Norm ∧
    q.fs2.Norm ∧ q.fd1.Norm

/-- What every reachable state satisfies, and every step keeps. -/
structure State.Inv (s : State) : Prop where
  /-- "Every valid register is normalized at every command boundary" (R22), within capacity (R23). -/
  regs   : ∀ r x, s.br r = some x → x.Norm
  status : s.status.Consistent
  memory : s.decBuf.wf = true
  dec    : s.DecConsistent
  seq    : s.seq.Resting

/-! ### What the host can observe (R232) -/

/-- "The observable final state is BR0 to BR15 (valid bit, sign, magnitude), DATA, KARG, DEC_LEN,
DEC_BUF and STATUS" (R232). -/
structure Observable where
  br     : RegId → Option (Bool × Nat)
  data   : Word
  karg   : Word
  decLen : Word
  decBuf : Nat → Option Byte
  status : Word

/-- The observable part of a state (R232). -/
def State.observe (s : State) : Observable :=
  { br := fun r => (s.br r).map fun x => (x.sign, x.mag)
    data := s.data
    karg := s.karg
    decLen := s.decLen
    decBuf := fun n => s.decBuf.read n
    status := s.status.word }

/-- Two states that differ at most in the hidden state: the sequencer's registers (R39, R43) and, with
no command in flight, the command latch (R41). -/
def State.SameButHidden (s t : State) : Prop :=
  t = { s with seq := t.seq, latch := t.latch } ∧ (s.status.busy = true → t.latch = s.latch)

/-- Two outcomes that differ at most in the hidden state. -/
def SameOutcomeButHidden : Host.Outcome State Fault Refusal → Host.Outcome State Fault Refusal → Prop
  | .next s, .next t => s.SameButHidden t
  | .fault e, .fault f => e = f
  | .refused r, .refused q => r = q
  | _, _ => False

/-! ### What comes next -/

/-- The command in flight completes next: no event comes before its completion (R226, R230). -/
def State.completesNext (s : State) : Prop :=
  s.status.busy = true ∧ (s.input = [] ∨ ∃ es, s.input = .complete :: es)

/-- The state with its next event taken off the list. -/
def State.popped (s : State) : State := { s with input := s.input.tail }

/-! ### Outcomes, written out -/

/-- STATUS after a completion without a fault: BUSY, ERR, ERRCODE 0, DONE 1, the rest kept (R226). -/
def Status.completed (st : Status) : Status :=
  { busy := false, done := true, err := false, ovr := st.ovr, serr := st.serr,
    cmpres := st.cmpres, errcode := none }

/-- STATUS after a completion with fault `e` (R202). -/
def Status.faulted (e : CmdFault) (st : Status) : Status :=
  { busy := false, done := true, err := true, ovr := st.ovr, serr := true,
    cmpres := st.cmpres, errcode := some e }

/-- The state after a command faulted with `e`: the state before it but for STATUS (R201, R207). -/
def State.faulted (e : CmdFault) (s : State) : State := { s with status := s.status.faulted e }

/-- The state after a command wrote `x` to register `rd` and nothing else. -/
def State.wrote (s : State) (rd : RegId) (x : BigInt) : State :=
  { s with regs := s.regs.set rd (some x), status := s.status.completed }

/-- The state after a command wrote `v` to DATA and nothing else. -/
def State.answered (s : State) (v : Word) : State :=
  { s with data := v, status := s.status.completed }

/-- An integer as a register holds it: sign true when negative, its magnitude (R14, R15). -/
def BigInt.ofInt (v : Int) : BigInt := mkBig (decide (v < 0)) v.natAbs

/-- The decimal string of a sign and a magnitude (R171), through the digits of the number. -/
def decimalString (sign : Bool) (m : Nat) : List Byte :=
  (if sign then [0x2D] else []) ++
    (if m = 0 then [0x30] else (Nat.digits 10 m).reverse.map fun d => BitVec.ofNat 8 (0x30 + d))

/-- DEC_LEN and DEC_BUF hold the string: its length, its bytes, 0x00 beyond it (R174). -/
def State.ShowsString (t : State) (str : List Byte) : Prop :=
  t.decLen.toNat = str.length ∧ ∀ n, n < Config.MAXD → t.decBuf.read n = some (str.getD n 0)

/-! ### Sizes -/

/-- The magnitude sum of `a` and `b` fits: `ceil((max(bl(a), bl(b)) + 1) / 32) <= MAXW` (R130). -/
def sumFits (a b : Nat) : Prop := (max (bl a) (bl b) + 1 + 31) / 32 ≤ Config.MAXW

/-- The product of `a` and `b` fits: `bl(a) + bl(b) <= 32 * MAXW` (R150). -/
def productFits (a b : Nat) : Prop := bl a + bl b ≤ 32 * Config.MAXW

/-- The left shift of `x` by `n` fits: not both `len = MAXW` and `n > 32 * MAXW - bl` (R160). -/
def shiftFits (x : BigInt) (n : Nat) : Prop :=
  ¬ (x.len = Config.MAXW ∧ n > 32 * Config.MAXW - bl x.mag)

/-! ### The opcode map's must-be-zero bits (R72, R75) -/

/-- The assigned opcodes with the must-be-zero bits of their format (R72, R75). -/
def mustBeZeroBits : List (BitVec 8 × Word) :=
  [(0x01, 0x00FFFFFF), (0x02, 0x000FFFFF), (0x03, 0x000FFFFF), (0x04, 0x0000FFFF), (0x05, 0x0000FFFF),
   (0x06, 0x000FFFFF), (0x07, 0x00F00000), (0x08, 0x00F0FFFF), (0x09, 0x00F0FFFF), (0x0A, 0x00F00FFF)] ++
  [(0x10, 0x00000FFF), (0x11, 0x00000FFF), (0x12, 0x00000FFF), (0x13, 0x00000FFF), (0x14, 0x0000FFFF),
   (0x18, 0x00000FFF), (0x1C, 0x0000FFE0), (0x20, 0x00F0FFFF), (0x30, 0x000FFFFF)]

/-- `c[31:24]` is assigned (R75). -/
def assignedOpcode (c : Word) : Prop := ∃ p ∈ mustBeZeroBits, p.1 = c.extractLsb' 24 8

/-- `c[31:24]` is assigned and some must-be-zero bit of its format is 1 (R72, R76). -/
def mustBeZeroViolated (c : Word) : Prop :=
  ∃ p ∈ mustBeZeroBits, p.1 = c.extractLsb' 24 8 ∧ c &&& p.2 ≠ 0

end Sys2Proof.Machine

namespace Sys2Proof

open Sys2Proof.Machine

/-! ### Registers a command checks, and the sizes it needs -/

/-- The register fields `need` checks: every one a command names, "except the rd of ALLOC and the rs1
of RDHDR" (R204). -/
def Instr.needs : Instr → List RegId
  | .nop => []
  | .alloc _ => []
  | .free rd => [rd]
  | .copy rd rs1 => [rs1, rd]
  | .swap rd rs1 => [rs1, rd]
  | .pushw rd => [rd]
  | .rdw rs1 _ => [rs1]
  | .rdhdr _ => []
  | .bitlen rs1 => [rs1]
  | .cmp rs1 rs2 => [rs1, rs2]
  | .add rd rs1 rs2 => [rs1, rs2, rd]
  | .sub rd rs1 rs2 => [rs1, rs2, rd]
  | .addm rd rs1 rs2 => [rs1, rs2, rd]
  | .subm rd rs1 rs2 => [rs1, rs2, rd]
  | .neg rd rs1 => [rs1, rd]
  | .mul rd rs1 rs2 => [rs1, rs2, rd]
  | .shl rd rs1 _ => [rs1, rd]
  | .todec rs1 => [rs1]
  | .fib rd => [rd]

/-- A result of the command needs a provisional length above MAXW (R105, R130, R133, R134, R150, R160,
R205); FIB's own limit is a statement of its own (R186). -/
def Instr.exceedsCapacity (i : Instr) (s : Machine.State) : Prop :=
  match i with
  | .nop => False
  | .alloc _ => False
  | .free _ => False
  | .copy _ _ => False
  | .swap _ _ => False
  | .pushw rd => ∃ x, s.br rd = some x ∧ x.len = Config.MAXW
  | .rdw _ _ => False
  | .rdhdr _ => False
  | .bitlen _ => False
  | .cmp _ _ => False
  | .add _ rs1 rs2 => ∃ a b, s.br rs1 = some a ∧ s.br rs2 = some b ∧ a.sign = b.sign ∧
      ¬ sumFits a.mag b.mag
  | .sub _ rs1 rs2 => ∃ a b, s.br rs1 = some a ∧ s.br rs2 = some b ∧
      a.sign = (!b.sign && decide (b.mag ≠ 0)) ∧ ¬ sumFits a.mag b.mag
  | .addm _ rs1 rs2 => ∃ a b, s.br rs1 = some a ∧ s.br rs2 = some b ∧ ¬ sumFits a.mag b.mag
  | .subm _ _ _ => False
  | .neg _ _ => False
  | .mul _ rs1 rs2 => ∃ a b, s.br rs1 = some a ∧ s.br rs2 = some b ∧ ¬ productFits a.mag b.mag
  | .shl _ rs1 shamt => ∃ x, s.br rs1 = some x ∧ shamt ≠ 0 ∧ ¬ shiftFits x shamt
  | .todec _ => False
  | .fib _ => False

/-- The registers a command may write (its destinations); every other one is unchanged. -/
def Instr.written : Instr → List RegId
  | .nop => []
  | .alloc rd => [rd]
  | .free rd => [rd]
  | .copy rd _ => [rd]
  | .swap rd rs1 => [rd, rs1]
  | .pushw rd => [rd]
  | .rdw _ _ => []
  | .rdhdr _ => []
  | .bitlen _ => []
  | .cmp _ _ => []
  | .add rd _ _ => [rd]
  | .sub rd _ _ => [rd]
  | .addm rd _ _ => [rd]
  | .subm rd _ _ => [rd]
  | .neg rd _ => [rd]
  | .mul rd _ _ => [rd]
  | .shl rd _ _ => [rd]
  | .todec _ => []
  | .fib rd => [rd]

/-- "the commands RDW, RDHDR and BITLEN write their result to" DATA (R31). -/
def Instr.writesData : Instr → Bool
  | .nop => false
  | .alloc _ => false
  | .free _ => false
  | .copy _ _ => false
  | .swap _ _ => false
  | .pushw _ => false
  | .rdw _ _ => true
  | .rdhdr _ => true
  | .bitlen _ => true
  | .cmp _ _ => false
  | .add _ _ _ => false
  | .sub _ _ _ => false
  | .addm _ _ _ => false
  | .subm _ _ _ => false
  | .neg _ _ => false
  | .mul _ _ _ => false
  | .shl _ _ _ => false
  | .todec _ => false
  | .fib _ => false

/-- DEC_LEN and DEC_BUF are "written by TODEC and FIB" (R33, R34). -/
def Instr.writesDecimal : Instr → Bool
  | .nop => false
  | .alloc _ => false
  | .free _ => false
  | .copy _ _ => false
  | .swap _ _ => false
  | .pushw _ => false
  | .rdw _ _ => false
  | .rdhdr _ => false
  | .bitlen _ => false
  | .cmp _ _ => false
  | .add _ _ _ => false
  | .sub _ _ _ => false
  | .addm _ _ _ => false
  | .subm _ _ _ => false
  | .neg _ _ => false
  | .mul _ _ _ => false
  | .shl _ _ _ => false
  | .todec _ => true
  | .fib _ => true

/-- "CMPRES keeps its value across every command except CMP" (R29). -/
def Instr.isCmp : Instr → Bool
  | .nop => false
  | .alloc _ => false
  | .free _ => false
  | .copy _ _ => false
  | .swap _ _ => false
  | .pushw _ => false
  | .rdw _ _ => false
  | .rdhdr _ => false
  | .bitlen _ => false
  | .cmp _ _ => true
  | .add _ _ _ => false
  | .sub _ _ _ => false
  | .addm _ _ _ => false
  | .subm _ _ _ => false
  | .neg _ _ => false
  | .mul _ _ _ => false
  | .shl _ _ _ => false
  | .todec _ => false
  | .fib _ => false

/-- Only FIB moves the sequencer (R43). -/
def Instr.isFib : Instr → Bool
  | .nop => false
  | .alloc _ => false
  | .free _ => false
  | .copy _ _ => false
  | .swap _ _ => false
  | .pushw _ => false
  | .rdw _ _ => false
  | .rdhdr _ => false
  | .bitlen _ => false
  | .cmp _ _ => false
  | .add _ _ _ => false
  | .sub _ _ _ => false
  | .addm _ _ _ => false
  | .subm _ _ _ => false
  | .neg _ _ => false
  | .mul _ _ _ => false
  | .shl _ _ _ => false
  | .todec _ => false
  | .fib _ => true

end Sys2Proof
end

