-- ==== Sys2Proof/Certificates/Slice0/Obligations.lean ====
section
/-! DEFINITION. The statements about FIBCORE for the provers. Each docstring cites the rules of spec/ it
comes from. -/

open Sys2Proof Sys2Proof.Machine

/-! ### Encoding (30_encoding.md) -/

/-- R70 to R75: decoding the encoding of any command an assembler accepts gives that command back, with
every operand at every value its field admits. -/
def Obligations.DecodeOfEncode : Prop :=
  ∀ i : Instr, i.wellFormed = true → decode (encode i) = .ok i

/-- R71, R72, R76: a word that decodes is the encoding of the command it decodes to, which is well
formed: no bit of a legal word is dropped, and no other word has the same meaning. -/
def Obligations.EncodeOfDecode : Prop :=
  ∀ (c : Word) (i : Instr), decode c = .ok i → i.wellFormed = true ∧ encode i = c

/-- R72, R76, R77: a word is refused for its opcode exactly when that is none of the 19 assigned ones,
and for a must-be-zero bit exactly when its opcode is assigned and such a bit of its format is 1. -/
def Obligations.IllegalWordsExactly : Prop :=
  ∀ c : Word,
    (decode c = .error .reservedOpcode ↔ ¬ assignedOpcode c) ∧
    (decode c = .error .mustBeZero ↔ mustBeZeroViolated c)

/-- R79, R80: the words the spec writes out decode to the commands it writes beside them. -/
def Obligations.SpecWordsDecode : Prop :=
  decode 0x01000000 = .ok .nop ∧ decode 0x02100000 = .ok (.alloc 1) ∧
  decode 0x07010002 = .ok (.rdw 1 2) ∧ decode 0x0A012000 = .ok (.cmp 1 2) ∧
  decode 0x11312000 = .ok (.sub 3 1 2) ∧ decode 0x14210000 = .ok (.neg 2 1) ∧
  decode 0x18312000 = .ok (.mul 3 1 2) ∧ decode 0x1C210001 = .ok (.shl 2 1 1) ∧
  decode 0x20030000 = .ok (.todec 3) ∧ decode 0x30000000 = .ok (.fib 0) ∧
  decode 0x00000000 = .error .reservedOpcode ∧ decode 0x01000001 = .error .mustBeZero

/-! ### Steps: issue, completion, host accesses, reset -/

/-- R76, R226: when the command in flight completes next and its latched word decodes to `i`, the step
is the execution of `i`, with nothing added but the event taken off the list. The second clause is
about `withFetchWord` alone and is the model's own choice, no rule of the spec (log 10): it places the
word as the command in flight whether or not one is in flight already, where R227 would drop a write. -/
def Obligations.StepRunsTheLatchedCommand : Prop :=
  (∀ (s : State) (i : Instr), s.completesNext → decode s.latch = .ok i → step s = exec i s.popped) ∧
  (∀ (s : State) (c : Word) (i : Instr), decode c = .ok i →
    step (s.withFetchWord 32 c.toNat) = exec i (s.issue c))

/-- R203: an illegal word completes with ILLEGAL_CMD and changes only STATUS, whatever any register
holds. The latch keeps its word after the completion by the model's choice, log 18. -/
def Obligations.IllegalWordRaisesIllegalCmd : Prop :=
  ∀ s : State, s.completesNext → (¬ assignedOpcode s.latch ∨ mustBeZeroViolated s.latch) →
    step s = .next (s.popped.faulted .illegalCmd)

/-- R225: a host write of `c` to CMD while BUSY = 0 latches `c`, sets BUSY, clears DONE, ERR and
ERRCODE and changes nothing else, whatever `c` is; an illegal `c` is issued and then completes with
ILLEGAL_CMD. The latch keeps its word after the completion by the model's choice, log 18. -/
def Obligations.IssueLatchesTheWord : Prop :=
  ∀ (s : State) (c : Word) (es : List Event),
    s.input = hostWrite 0x000 c :: es → s.status.busy = false →
    ∃ t, step s = .next t ∧
      t = { s with
            input := es
            latch := c
            status := { s.status with busy := true, done := false, err := false, errcode := none } } ∧
      ((es = [] ∨ ∃ rest, es = .complete :: rest) → (¬ assignedOpcode c ∨ mustBeZeroViolated c) →
        step t = .next (t.popped.faulted .illegalCmd))

/-- R227: while BUSY = 1 a host write of CMD, DATA or KARG is dropped and sets OVR and nothing else, and a
write of CTRL takes effect (bit 0 = 1 clears OVR and SERR, bit 0 = 0 does nothing). Read-only and
reserved offsets ignore writes whether or not BUSY is 1, and DATA and KARG hold through a command. -/
def Obligations.WritesWhileBusyAreDropped : Prop :=
  (∀ (s : State) (off : Nat) (v : Word) (es : List Event), s.status.busy = true →
    (off = 0x000 ∨ off = 0x008 ∨ off = 0x00C) → s.input = hostWrite off v :: es →
    step s = .next { s with input := es, status := { s.status with ovr := true } }) ∧
  (∀ (s : State) (v : Word) (es : List Event), s.status.busy = true →
    s.input = hostWrite 0x014 v :: es → v.getLsbD 0 = true →
    step s = .next { s with input := es, status := { s.status with ovr := false, serr := false } }) ∧
  (∀ (s : State) (v : Word) (es : List Event), s.status.busy = true →
    s.input = hostWrite 0x014 v :: es → v.getLsbD 0 = false → step s = .next { s with input := es }) ∧
  (∀ (s : State) (off : Nat) (v : Word) (es : List Event), off < 2048 → off % 4 = 0 →
    off ≠ 0x000 → off ≠ 0x008 → off ≠ 0x00C → off ≠ 0x014 → s.input = hostWrite off v :: es →
    step s = .next { s with input := es }) ∧
  (∀ s t : State, s.status.busy = true → step s = .next t → t.status.busy = true →
    t.data = s.data ∧ t.karg = s.karg)

/-- R31, R32, R53: with BUSY = 0 a host write of DATA or KARG sets that register and nothing else. -/
def Obligations.WritesOfDataAndKarg : Prop :=
  ∀ (s : State) (v : Word) (es : List Event), s.status.busy = false →
    (s.input = hostWrite 0x008 v :: es → step s = .next { s with input := es, data := v }) ∧
    (s.input = hostWrite 0x00C v :: es → step s = .next { s with input := es, karg := v })

/-- R36: CTRL reads 0; a write with bit 0 = 1 clears OVR and SERR and nothing else, one with bit 0 = 0
has no effect, busy or not, whatever the other bits are. (That the value read goes to `readLog` and
that `draws` counts the read are the model's own, log 4 and 7.) -/
def Obligations.CtrlClearsTheStickyBits : Prop :=
  ∀ (s : State) (es : List Event),
    (∀ v : Word, s.input = hostWrite 0x014 v :: es → v.getLsbD 0 = true →
      step s = .next { s with input := es, status := { s.status with ovr := false, serr := false } }) ∧
    (∀ v : Word, s.input = hostWrite 0x014 v :: es → v.getLsbD 0 = false →
      step s = .next { s with input := es }) ∧
    (s.input = hostRead 0x014 :: es →
      step s = .next { s with input := es, readLog := 0 :: s.readLog, draws := s.draws + 1 })

/-- R53: with BUSY = 0, what a host read of CMD, STATUS, DATA, KARG, DEC_LEN and CTRL returns. (That the
value goes to `readLog` and that `draws` counts the read are the model's own, log 4 and 7.) -/
def Obligations.ReadsWhileIdle : Prop :=
  ∀ (s : State) (es : List Event) (p : Nat × Word), s.status.busy = false →
    p ∈ [(0x000, 0), (0x004, s.status.word), (0x008, s.data), (0x00C, s.karg), (0x010, s.decLen), (0x014, 0)] →
    s.input = hostRead p.1 :: es →
    step s = .next { s with input := es, readLog := p.2 :: s.readLog, draws := s.draws + 1 }

/-- R228: while BUSY = 1, reads of CMD, STATUS, KARG, CTRL, INFO, INFO2 and reserved offsets return the
values of the register map, and reads of DATA, DEC_LEN and the DEC window return an unspecified value:
the free value of this read (log 4), whatever it is. (`readLog` and `draws` are the model's own, log 4
and 7.) -/
def Obligations.ReadsWhileBusy : Prop :=
  ∀ (s : State) (es : List Event) (off : Nat), s.status.busy = true → off < 2048 → off % 4 = 0 →
    s.input = hostRead off :: es →
    ∃ v, step s = .next { s with input := es, readLog := v :: s.readLog, draws := s.draws + 1 } ∧
      (off = 0x004 → v = s.status.word) ∧ (off = 0x00C → v = s.karg) ∧
      (off = 0x018 → v = 0x00100040) ∧ (off = 0x01C → v = 0x00000280) ∧
      ((off = 0x000 ∨ off = 0x014 ∨ (0x020 ≤ off ∧ off < 0x400)) → v = 0) ∧
      ((off = 0x008 ∨ off = 0x010 ∨ 0x400 ≤ off) → v = Config.freeWord s.draws)

/-- R37, R38: every read of INFO returns 0x00100040 and every read of INFO2 0x00000280, busy or not, and
both are read-only. (`readLog` and `draws` are the model's own, log 4 and 7.) -/
def Obligations.InfoRegistersAreConstant : Prop :=
  ∀ (s : State) (es : List Event),
    (s.input = hostRead 0x018 :: es →
      step s = .next { s with input := es, readLog := 0x00100040 :: s.readLog, draws := s.draws + 1 }) ∧
    (s.input = hostRead 0x01C :: es →
      step s = .next { s with input := es, readLog := 0x00000280 :: s.readLog, draws := s.draws + 1 }) ∧
    (∀ v : Word, (s.input = hostWrite 0x018 v :: es ∨ s.input = hostWrite 0x01C v :: es) →
      step s = .next { s with input := es })

/-- R54: reserved offsets read as 0 and ignore writes, with no other effect. (`readLog` and `draws` are the
model's own, log 4 and 7.) -/
def Obligations.ReservedOffsetsDoNothing : Prop :=
  ∀ (s : State) (es : List Event) (off : Nat), 0x020 ≤ off → off ≤ 0x3FF → off % 4 = 0 →
    (s.input = hostRead off :: es →
      step s = .next { s with input := es, readLog := 0 :: s.readLog, draws := s.draws + 1 }) ∧
    (∀ v : Word, s.input = hostWrite off v :: es → step s = .next { s with input := es })

/-- R34, R55, R56: with BUSY = 0, a read of the DEC window at `0x400 + 4*j` is served, whatever DEC_BUF
holds. Its word packs bytes `4j` to `4j+3`, the lower index in the less significant bits. Each is the
byte of DEC_BUF where a conversion has written it, a free value of this read and lane, whatever it is,
where none has since reset (log 5), and 0x00 from MAXD on. (`readLog` and `draws` are the model's own,
log 4 and 7.) -/
def Obligations.DecWindowPacksCharacters : Prop :=
  ∀ (s : State) (es : List Event) (j : Nat), s.status.busy = false → j ≤ 255 →
    s.input = hostRead (0x400 + 4 * j) :: es →
    ∃ v : Word, step s = .next { s with input := es, readLog := v :: s.readLog, draws := s.draws + 1 } ∧
      ∀ n, n < 4 →
        (∀ b, 4 * j + n < 640 → s.decBuf.read (4 * j + n) = some b → v.extractLsb' (8 * n) 8 = b) ∧
        (4 * j + n < 640 → s.decBuf.read (4 * j + n) = none →
          v.extractLsb' (8 * n) 8 = Config.freeByte (4 * s.draws + n)) ∧
        (640 ≤ 4 * j + n → v.extractLsb' (8 * n) 8 = 0)

/-- R58, R221: an access that is not 32 bits wide, or not at a multiple of 4, or that overlaps the
assertion or release of `rst`, is refused. (That the last is an event of its own is the model's
rendering, log 15.) -/
def Obligations.UndefinedAccessesAreRefused : Prop :=
  (∀ (s : State) (a : HostAccess) (es : List Event), s.input = .access a :: es →
    (a.width ≠ .w32 → step s = .refused .narrowAccess) ∧
    (a.width = .w32 → a.addr % 4 ≠ 0 → step s = .refused .misalignedAccess)) ∧
  ∀ (s : State) (a : HostAccess) (es : List Event), s.input = .accessDuringReset a :: es →
    step s = .refused .accessDuringReset

/-- R59: a read has no side effect: only what the model records of the host's side changes (`readLog`
and `draws`, the model's own, log 4 and 7). -/
def Obligations.ReadsHaveNoSideEffects : Prop :=
  ∀ (s t : State) (a : HostAccess) (es : List Event), s.input = .access a :: es → a.kind = .read →
    step s = .next t → t = { s with input := es, readLog := t.readLog, draws := t.draws }

/-- R45, R220: reset, at any time and from any state, gives every piece of state the reset value the
spec states; a command in flight is abandoned. The first clause says the same of `State.reset`. -/
def Obligations.ResetGivesTheResetValues : Prop :=
  ((∀ r, State.reset.br r = none) ∧ State.reset.status.word = 0 ∧ State.reset.data = 0 ∧
    State.reset.karg = 0 ∧ State.reset.decLen = 0 ∧ State.reset.seq.fsm = .idle) ∧
  ∀ (s : State) (es : List Event), s.input = .reset :: es →
    ∃ t, step s = .next t ∧ t.input = es ∧ (∀ r, t.br r = none) ∧ t.status.word = 0 ∧ t.data = 0 ∧
      t.karg = 0 ∧ t.decLen = 0 ∧ t.seq.fsm = .idle

/-- R18: with no command in flight and no event to come the machine has no step. (That it is stuck
under the name `idle` is the model's rendering, log 13.) -/
def Obligations.IdleMachineHasNoStep : Prop :=
  ∀ s : State, s.input = [] → s.status.busy = false → step s = .fault .idle

/-- R226, R230: with only well-formed accesses to come, the command in flight completes after them:
until then BUSY is 1 and the latch, DATA, KARG, the registers and the decimal output are as at issue,
and the next step clears BUSY and sets DONE. (That it completes right after the last listed event is
the model's rendering of LAT, log 1.) -/
def Obligations.CommandInFlightCompletes : Prop :=
  ∀ s : State, s.status.busy = true →
    (∀ e ∈ s.input, ∃ off, off < 2048 ∧ off % 4 = 0 ∧ (e = hostRead off ∨ ∃ v, e = hostWrite off v)) →
    ∃ u t : State,
      Sys2Proof.core.run s.input.length s = .next u ∧ u.input = [] ∧ u.status.busy = true ∧
      u.latch = s.latch ∧ u.data = s.data ∧ u.karg = s.karg ∧ (∀ r, u.br r = s.br r) ∧
      u.decLen = s.decLen ∧ u.decBuf = s.decBuf ∧
      Sys2Proof.core.run (s.input.length + 1) s = .next t ∧
      t.status.busy = false ∧ t.status.done = true

/-! ### Completion and faults (60_exceptions.md) -/

/-- R202, R226: every command, with any operands and from any state, completes: BUSY is 0, DONE 1, and
either ERR and ERRCODE are 0 with SERR kept, or they and SERR record a fault. -/
def Obligations.EveryCommandCompletes : Prop :=
  ∀ (i : Instr) (s : State), ∃ t, exec i s = .next t ∧ t.status.busy = false ∧ t.status.done = true ∧
    ((t.status.err = false ∧ t.status.errcode = none ∧ t.status.serr = s.status.serr) ∨
     (t.status.err = true ∧ (∃ e, t.status.errcode = some e) ∧ t.status.serr = true))

/-- R201: a command that faults changes only the completion fields of STATUS. The second clause says
the same of the completion of any latched word, an illegal one included. (That the sequencer's working
registers also keep their contents after a FIB that faults is the model's choice, log 9.) The latch
keeps its word after the completion by the model's choice, log 18. -/
def Obligations.FaultsAreAllOrNothing : Prop :=
  (∀ (i : Instr) (s t : State), exec i s = .next t → t.status.err = true →
    ∃ e, t.status.errcode = some e ∧ t = s.faulted e) ∧
  (∀ s t : State, s.completesNext → step s = .next t → t.status.err = true →
    ∃ e, t.status.errcode = some e ∧ t = s.popped.faulted e)

/-- R204: INVALID_OPERAND is raised exactly when a register the command checks is not valid, or by SUBM
when the first magnitude is smaller. -/
def Obligations.InvalidOperandExactly : Prop :=
  ∀ (i : Instr) (s t : State), (∀ r x, s.br r = some x → x.Norm) → exec i s = .next t →
    (t.status.errcode = some .invalidOperand ↔
      (∃ r ∈ i.needs, s.br r = none) ∨
      (∃ rd rs1 rs2 a b, i = .subm rd rs1 rs2 ∧ s.br rs1 = some a ∧ s.br rs2 = some b ∧ a.mag < b.mag))

/-- R205, R206: with every checked register valid, a command other than FIB raises CAPACITY exactly when
its provisional length exceeds MAXW. -/
def Obligations.CapacityExactly : Prop :=
  ∀ (i : Instr) (s t : State), i.wellFormed = true → i.isFib = false →
    (∀ r x, s.br r = some x → x.Norm) → (∀ r ∈ i.needs, (s.br r).isSome = true) → exec i s = .next t →
    (t.status.errcode = some .capacity ↔ i.exceedsCapacity s)

/-! ### Lifecycle and word transfer (40_lifecycle.md) -/

/-- R100: NOP changes the completion fields of STATUS and nothing else. The latch keeps its word after
the completion by the model's choice, log 18. -/
def Obligations.NopResult : Prop :=
  ∀ s : State, exec .nop s = .next { s with status := s.status.completed }

/-- R101: ALLOC makes rd valid with the one word in DATA, sign false, whatever rd held. The latch
keeps its word after the completion by the model's choice, log 18. -/
def Obligations.AllocResult : Prop :=
  ∀ (s : State) (rd : RegId), exec (.alloc rd) s = .next (s.wrote rd ⟨false, [s.data]⟩)

/-- R102: FREE of a valid register makes it invalid, and a second FREE raises INVALID_OPERAND. The
latch keeps its word after the completion by the model's choice, log 18. -/
def Obligations.FreeResult : Prop :=
  ∀ (s : State) (rd : RegId) (x : BigInt), s.br rd = some x →
    ∃ t, exec (.free rd) s = .next t ∧
      t = { s with regs := s.regs.set rd none, status := s.status.completed } ∧ t.br rd = none ∧
      exec (.free rd) t = .next (t.faulted .invalidOperand)

/-- R103: COPY writes rs1's sign and words to rd. The latch keeps its word after the completion by the
model's choice, log 18. -/
def Obligations.CopyResult : Prop :=
  ∀ (s : State) (rd rs1 : RegId) (x y : BigInt), s.br rs1 = some x → s.br rd = some y →
    exec (.copy rd rs1) s = .next (s.wrote rd x)

/-- R104: SWAP exchanges the two registers and changes no other. The latch keeps its word after the
completion by the model's choice, log 18. -/
def Obligations.SwapResult : Prop :=
  ∀ (s : State) (rd rs1 : RegId) (x y : BigInt), s.br rs1 = some x → s.br rd = some y →
    ∃ t, exec (.swap rd rs1) s = .next t ∧ t.br rd = some x ∧ t.br rs1 = some y ∧
      (∀ r, r ≠ rd → r ≠ rs1 → t.br r = s.br r) ∧
      t = { s with regs := t.regs, status := s.status.completed }

/-- R105: PUSHW of a register below full length gives `mag * 2^32 + DATA` with the sign kept. The
latch keeps its word after the completion by the model's choice, log 18. -/
def Obligations.PushwResult : Prop :=
  ∀ (s : State) (rd : RegId) (x : BigInt), s.br rd = some x → x.Norm → x.len < Config.MAXW →
    exec (.pushw rd) s = .next (s.wrote rd (mkBig x.sign (x.mag * 2 ^ 32 + s.data.toNat)))

/-- R106: RDW writes `floor(mag / 2^(32*imm16)) mod 2^32` to DATA, for every index. The latch keeps
its word after the completion by the model's choice, log 18. -/
def Obligations.RdwResult : Prop :=
  ∀ (s : State) (rs1 : RegId) (imm16 : Nat) (x : BigInt), s.br rs1 = some x →
    ∃ v : Word, exec (.rdw rs1 imm16) s = .next (s.answered v) ∧
      v.toNat = x.mag / 2 ^ (32 * imm16) % 2 ^ 32

/-- R107: RDHDR writes sign, 1 and the word count to DATA, or 0 for an invalid register. The latch
keeps its word after the completion by the model's choice, log 18. -/
def Obligations.RdhdrResult : Prop :=
  ∀ (s : State) (rs1 : RegId),
    (s.br rs1 = none → exec (.rdhdr rs1) s = .next (s.answered 0)) ∧
    ∀ x, s.br rs1 = some x → x.Norm →
      ∃ v : Word, exec (.rdhdr rs1) s = .next (s.answered v) ∧
        v.toNat = (if x.sign then 2 ^ 31 else 0) + 2 ^ 30 + nw x.mag

/-! ### Bit length and comparison (41_compare.md) -/

/-- R120, R121: BITLEN writes to DATA the least n with `mag < 2^n`. The latch keeps its word after the
completion by the model's choice, log 18. -/
def Obligations.BitlenResult : Prop :=
  ∀ (s : State) (rs1 : RegId) (x : BigInt), s.br rs1 = some x → x.Norm →
    ∃ v : Word, exec (.bitlen rs1) s = .next (s.answered v) ∧ ∀ n, x.mag < 2 ^ n ↔ v.toNat ≤ n

/-- R122, R123: CMP sets CMPRES by the order of the magnitudes, signs ignored, and nothing else. The
latch keeps its word after the completion by the model's choice, log 18. -/
def Obligations.CmpResult : Prop :=
  ∀ (s : State) (rs1 rs2 : RegId) (a b : BigInt), s.br rs1 = some a → s.br rs2 = some b →
    a.Norm → b.Norm →
    exec (.cmp rs1 rs2) s = .next { s with
      status := { s.status.completed with
        cmpres := if a.mag = b.mag then .equal else if a.mag > b.mag then .greater else .less } }

/-! ### Addition, subtraction, negation, multiplication, shift (42 to 44) -/

/-- R133, R138: ADD writes exactly `val(rs1) + val(rs2)`, whichever registers coincide, when the signs
differ or the magnitude sum fits. The latch keeps its word after the completion by the model's choice,
log 18. -/
def Obligations.AddResult : Prop :=
  ∀ (s : State) (rd rs1 rs2 : RegId) (a b d : BigInt),
    s.br rs1 = some a → s.br rs2 = some b → s.br rd = some d → a.Norm → b.Norm →
    (a.sign = b.sign → sumFits a.mag b.mag) →
    exec (.add rd rs1 rs2) s = .next (s.wrote rd (BigInt.ofInt (a.val + b.val)))

/-- R134, R139: SUB writes exactly `val(rs1) - val(rs2)`, when rs1's sign differs from the sign of the
negation of rs2 or the magnitude sum fits. The latch keeps its word after the completion by the
model's choice, log 18. -/
def Obligations.SubResult : Prop :=
  ∀ (s : State) (rd rs1 rs2 : RegId) (a b d : BigInt),
    s.br rs1 = some a → s.br rs2 = some b → s.br rd = some d → a.Norm → b.Norm →
    (a.sign = (!b.sign && decide (b.mag ≠ 0)) → sumFits a.mag b.mag) →
    exec (.sub rd rs1 rs2) s = .next (s.wrote rd (BigInt.ofInt (a.val - b.val)))

/-- R130, R135: ADDM writes `mag(rs1) + mag(rs2)`, non-negative, when the sum's provisional length
fits. The latch keeps its word after the completion by the model's choice, log 18. -/
def Obligations.AddmResult : Prop :=
  ∀ (s : State) (rd rs1 rs2 : RegId) (a b d : BigInt),
    s.br rs1 = some a → s.br rs2 = some b → s.br rd = some d → a.Norm → b.Norm → sumFits a.mag b.mag →
    exec (.addm rd rs1 rs2) s = .next (s.wrote rd (mkBig false (a.mag + b.mag)))

/-- R131, R136: SUBM writes `mag(rs1) - mag(rs2)`, non-negative, and raises INVALID_OPERAND when the
first magnitude is smaller. The latch keeps its word after the completion by the model's choice, log
18. -/
def Obligations.SubmResult : Prop :=
  ∀ (s : State) (rd rs1 rs2 : RegId) (a b d : BigInt),
    s.br rs1 = some a → s.br rs2 = some b → s.br rd = some d →
    (b.mag ≤ a.mag → exec (.subm rd rs1 rs2) s = .next (s.wrote rd (mkBig false (a.mag - b.mag)))) ∧
    (a.mag < b.mag → exec (.subm rd rs1 rs2) s = .next (s.faulted .invalidOperand))

/-- R132, R137: NEG writes the negated value, zero staying +0. The latch keeps its word after the
completion by the model's choice, log 18. -/
def Obligations.NegResult : Prop :=
  ∀ (s : State) (rd rs1 : RegId) (x d : BigInt), s.br rs1 = some x → s.br rd = some d → x.Norm →
    exec (.neg rd rs1) s = .next (s.wrote rd (BigInt.ofInt (-x.val)))

/-- R150, R151, R154: MUL writes exactly `val(rs1) * val(rs2)`, whichever registers coincide, when
`bl(rs1) + bl(rs2)` is within capacity. The latch keeps its word after the completion by the model's
choice, log 18. -/
def Obligations.MulResult : Prop :=
  ∀ (s : State) (rd rs1 rs2 : RegId) (a b d : BigInt),
    s.br rs1 = some a → s.br rs2 = some b → s.br rd = some d → a.Norm → b.Norm →
    productFits a.mag b.mag →
    exec (.mul rd rs1 rs2) s = .next (s.wrote rd (BigInt.ofInt (a.val * b.val)))

/-- R160, R161: SHL by 1 to 31 writes `mag(rs1) * 2^shamt` with rs1's sign when it fits; SHL by 0
writes nothing, even when rd differs from rs1. The latch keeps its word after the completion by the
model's choice, log 18. -/
def Obligations.ShlResult : Prop :=
  ∀ (s : State) (rd rs1 : RegId) (x d : BigInt), s.br rs1 = some x → s.br rd = some d →
    exec (.shl rd rs1 0) s = .next { s with status := s.status.completed } ∧
    ∀ n, 1 ≤ n → n ≤ 31 → x.Norm → shiftFits x n →
      exec (.shl rd rs1 n) s = .next (s.wrote rd (mkBig x.sign (x.mag * 2 ^ n)))

/-- R134: "subtract(add(a, b), b) == a, holds whenever neither command faults". -/
def Obligations.SubUndoesAdd : Prop :=
  ∀ (s t u : State) (rd rs1 rs2 : RegId) (a : BigInt), (∀ r x, s.br r = some x → x.Norm) →
    rd ≠ rs2 → s.br rs1 = some a →
    exec (.add rd rs1 rs2) s = .next t → t.status.err = false →
    exec (.sub rd rd rs2) t = .next u → u.status.err = false → u.br rd = some a

/-- R160: "SHL rd, rs, 1 equals ADD rd, rs, rs whenever neither faults". The latch keeps its word
after the completion by the model's choice, log 18. -/
def Obligations.ShlByOneIsDoubling : Prop :=
  ∀ (s t u : State) (rd rs : RegId), (∀ r x, s.br r = some x → x.Norm) →
    exec (.shl rd rs 1) s = .next t → t.status.err = false →
    exec (.add rd rs rs) s = .next u → u.status.err = false → t = u

/-- R231: operand aliasing is no hazard: with the same register contents under other, coinciding or
distinct, register numbers a command gives the same ERRCODE and the same destination. -/
def Obligations.AliasingIsNoHazard : Prop :=
  ∀ (s s' t t' : State) (rd rs1 rs2 rd' rs1' rs2' : RegId) (op : RegId → RegId → RegId → Instr),
    s.br rd = s'.br rd' → s.br rs1 = s'.br rs1' → s.br rs2 = s'.br rs2' →
    (op ∈ [Instr.add, Instr.sub, Instr.addm, Instr.subm, Instr.mul] ∨
      op = (fun d a _ => Instr.copy d a) ∨ op = (fun d a _ => Instr.neg d a) ∨
      ∃ n, op = fun d a _ => Instr.shl d a n) →
    exec (op rd rs1 rs2) s = .next t → exec (op rd' rs1' rs2') s' = .next t' →
    t.status.errcode = t'.status.errcode ∧ t.br rd = t'.br rd'

/-! ### Decimal conversion (45_decimal.md) -/

/-- R170, R171, R174: TODEC writes the decimal string of rs1 (minus sign, digits without leading
zeros) to DEC_BUF, zero beyond it, its length to DEC_LEN, and nothing else. (The character codes,
ASCII, are PRESUMED, log 12.) The latch keeps its word after the completion by the model's choice, log
18. -/
def Obligations.TodecResult : Prop :=
  ∀ (s : State) (rs1 : RegId) (x : BigInt), s.br rs1 = some x → x.Norm →
    ∃ t, exec (.todec rs1) s = .next t ∧ t.ShowsString (decimalString x.sign x.mag) ∧
      t = { s with decLen := t.decLen, decBuf := t.decBuf, status := s.status.completed }

/-- R173: the string of every register value has 1 to 618 characters, so conversion never faults. -/
def Obligations.TodecAlwaysFits : Prop :=
  ∀ (s : State) (rs1 : RegId) (x : BigInt), s.br rs1 = some x → x.Norm →
    ∃ t, exec (.todec rs1) s = .next t ∧ t.status.err = false ∧
      1 ≤ t.decLen.toNat ∧ t.decLen.toNat ≤ 618

/-! ### The FIB sequencer (46_fib.md) -/

/-- R183, R184, R188: an iteration for bit `i` that succeeds, started with Fib(m) and Fib(m+1) for
`m = floor(k / 2^(i+1))`, ends with Fib(m') and Fib(m'+1) for `m' = floor(k / 2^i)`. -/
def Obligations.IterationDoublesTheIndex : Prop :=
  ∀ (k : Nat) (q q' : Sequencer), q.fk.Norm → q.fk1.Norm →
    q.fk = mkBig false (Nat.fib (k / 2 ^ (q.i.val + 1))) →
    q.fk1 = mkBig false (Nat.fib (k / 2 ^ (q.i.val + 1) + 1)) →
    q.iteration k = .ok q' →
    q'.fk = mkBig false (Nat.fib (k / 2 ^ q.i.val)) ∧
    q'.fk1 = mkBig false (Nat.fib (k / 2 ^ q.i.val + 1))

/-- R180, R186, R187: with rd valid and KARG = k at most 2949, FIB writes Fib(k) to rd and its decimal
string to the decimal output, leaves the sequencer IDLE, and changes nothing else but the sequencer's
hidden registers. (The character codes, ASCII, are PRESUMED, log 12.) The latch keeps its word after
the completion by the model's choice, log 18. -/
def Obligations.FibComputesFibonacci : Prop :=
  ∀ (s : State) (rd : RegId) (d : BigInt), s.br rd = some d → s.karg.toNat ≤ 2949 →
    ∃ t, exec (.fib rd) s = .next t ∧ t.seq.fsm = .idle ∧
      t.ShowsString (decimalString false (Nat.fib s.karg.toNat)) ∧
      t = { s with
            regs := s.regs.set rd (some (mkBig false (Nat.fib s.karg.toNat)))
            decLen := t.decLen
            decBuf := t.decBuf
            seq := t.seq
            status := s.status.completed }

/-- R186: with rd valid and KARG at least 2950, FIB raises CAPACITY and changes only STATUS. (That the
sequencer's working registers keep their old contents is the model's choice, log 9.) The latch keeps
its word after the completion by the model's choice, log 18. -/
def Obligations.FibBeyondCapacity : Prop :=
  ∀ (s : State) (rd : RegId) (d : BigInt), s.br rd = some d → 2950 ≤ s.karg.toNat →
    exec (.fib rd) s = .next (s.faulted .capacity)

/-! ### Frames: what a command leaves unchanged -/

/-- R14, R40, R201: every register but the command's destinations is unchanged, for all 19 commands,
whether the command faults or not; SWAP has two destinations. -/
def Obligations.FrameOfRegisters : Prop :=
  ∀ (i : Instr) (s t : State), exec i s = .next t → ∀ r, r ∉ i.written → t.br r = s.br r

/-- R31, R32: DATA is unchanged by every command but RDW, RDHDR and BITLEN, and KARG by every command.
The rest is the model's own, no rule of the spec: the latch keeps the completed word (log 18), and no
command touches the events to come, what the host has read or the draw counter (log 1, 7 and 4). -/
def Obligations.FrameOfInterfaceRegisters : Prop :=
  ∀ (i : Instr) (s t : State), exec i s = .next t →
    (i.writesData = false → t.data = s.data) ∧ t.karg = s.karg ∧ t.latch = s.latch ∧
    t.input = s.input ∧ t.readLog = s.readLog ∧ t.draws = s.draws

/-- R33, R34, R39, R174: DEC_LEN and every byte of DEC_BUF are unchanged by every command but TODEC and
FIB, which store at indexes 0 to MAXD-1 and nowhere else; the sequencer's registers are unchanged by
every command but FIB. -/
def Obligations.FrameOfDecimalOutput : Prop :=
  ∀ (i : Instr) (s t : State), s.decBuf.wf = true → exec i s = .next t →
    (i.writesDecimal = false → t.decLen = s.decLen ∧ ∀ n, t.decBuf.read n = s.decBuf.read n) ∧
    (i.writesDecimal = true → ∀ n, Config.MAXD ≤ n → t.decBuf.read n = s.decBuf.read n) ∧
    (i.isFib = false → t.seq = s.seq)

/-- R29, R30: no command changes OVR; CMPRES is unchanged by every command but CMP, and by a CMP that
faults; SERR is unchanged by every command that does not fault. -/
def Obligations.FrameOfStatus : Prop :=
  ∀ (i : Instr) (s t : State), exec i s = .next t →
    t.status.ovr = s.status.ovr ∧
    ((i.isCmp = false ∨ t.status.err = true) → t.status.cmpres = s.status.cmpres) ∧
    (t.status.err = false → t.status.serr = s.status.serr)

/-! ### Whole-machine rules -/

/-- R24: a command changes which registers are valid only if it is an ALLOC, which makes its register
valid, or a FREE, which makes its register invalid. -/
def Obligations.OnlyAllocAndFreeChangeValidity : Prop :=
  ∀ (i : Instr) (s t : State) (r : RegId), exec i s = .next t →
    ((s.br r = none ∧ t.br r ≠ none → i = .alloc r) ∧
     (s.br r ≠ none ∧ t.br r = none → i = .free r))

/-- R27: the STATUS word: each field in its bits, every reserved bit 0, CMPRES never 3, ERRCODE never
above 3. -/
def Obligations.StatusWordLayout : Prop :=
  ∀ st : Status,
    st.word.getLsbD 0 = st.busy ∧ st.word.getLsbD 1 = st.done ∧ st.word.getLsbD 2 = st.err ∧
    st.word.getLsbD 3 = st.ovr ∧ st.word.getLsbD 4 = st.serr ∧
    st.word.extractLsb' 5 3 = 0 ∧ st.word.extractLsb' 10 2 = 0 ∧ st.word.extractLsb' 16 16 = 0 ∧
    (st.word.extractLsb' 8 2).toNat = (match st.cmpres with | .equal => 0 | .greater => 1 | .less => 2) ∧
    (st.word.extractLsb' 12 4).toNat =
      (match st.errcode with
      | none => 0
      | some .illegalCmd => 1
      | some .invalidOperand => 2
      | some .capacity => 3)

/-- R27, R29, R36: SERR and OVR are sticky: only CTRL.CLR and reset clear them. -/
def Obligations.StickyBitsStay : Prop :=
  ∀ s t : State, step s = .next t → (∀ es, s.input ≠ .reset :: es) →
    (∀ a v es, s.input = .access a :: es → a.offset = 0x014 → a.kind = .write v → v.getLsbD 0 = false) →
    (s.status.serr = true → t.status.serr = true) ∧ (s.status.ovr = true → t.status.ovr = true)

/-- R28, R220, R226: BUSY falls only by the completion of the command in flight, which sets DONE, or by
reset. -/
def Obligations.OnlyCompletionAndResetClearBusy : Prop :=
  ∀ s t : State, step s = .next t → s.status.busy = true → t.status.busy = false →
    (s.completesNext ∧ t.status.done = true) ∨ ∃ es, s.input = .reset :: es

/-- R22, R23, R29, R33, R43: the invariant holds at reset. (That the sequencer's working registers are
normalized then rests on the +0 the model chose for them, log 2; R45 leaves them unspecified.) -/
def Obligations.ResetSatisfiesInvariant : Prop := State.reset.Inv

/-- R22, R23: every step keeps the invariant: valid registers normalized and within capacity, STATUS
fields consistent, DEC_BUF in canonical form and consistent with DEC_LEN, the sequencer at rest with
normalized working registers. (That the sequencer is at rest between any two steps, a FIB in flight or
not, is the model's rendering, log 11; over a reset its working registers are the +0 the model chose,
log 2.) -/
def Obligations.StepKeepsInvariant : Prop :=
  ∀ s t : State, s.Inv → step s = .next t → t.Inv

/-- R39, R41: the hidden state cannot be observed: two states that differ only in the sequencer's
registers, and in the latch when no command is in flight, step to outcomes that differ only there. -/
def Obligations.HiddenStateIsUnobservable : Prop :=
  ∀ s t : State, s.SameButHidden t → SameOutcomeButHidden (step s) (step t)
end

