-- ==== Sys2Proof/Laws/BigInt.lean ====
section
/-! SUPPORT. Magnitudes, bit lengths and normalized values: one lemma per fact the datapath rests on. -/

namespace Sys2Proof.Machine

/-! ### Magnitudes of word lists -/

theorem two_pow_words_succ (n : Nat) : 2 ^ (32 * (n + 1)) = 2 ^ 32 * 2 ^ (32 * n) := by
  rw [← pow_add]; congr 1; omega

@[simp] theorem magOf_nil : magOf [] = 0 := rfl
@[simp] theorem magOf_cons (w : Word) (ws : List Word) : magOf (w :: ws) = w.toNat + 2 ^ 32 * magOf ws := rfl

theorem magOf_lt (ws : List Word) : magOf ws < 2 ^ (32 * ws.length) := by
  induction ws with
  | nil => simp
  | cons w ws ih =>
    have hw := w.isLt
    have : 2 ^ (32 * (w :: ws).length) = 2 ^ 32 * 2 ^ (32 * ws.length) := two_pow_words_succ _
    rw [this, magOf_cons]
    have : 2 ^ 32 * (magOf ws + 1) ≤ 2 ^ 32 * 2 ^ (32 * ws.length) := Nat.mul_le_mul_left _ ih
    omega

theorem magOf_append (as bs : List Word) :
    magOf (as ++ bs) = magOf as + 2 ^ (32 * as.length) * magOf bs := by
  induction as with
  | nil => simp
  | cons w ws ih =>
    have : 2 ^ (32 * (w :: ws).length) = 2 ^ 32 * 2 ^ (32 * ws.length) := two_pow_words_succ _
    rw [List.cons_append, magOf_cons, ih, this, magOf_cons]; ring

@[simp] theorem magOf_replicate_zero (n : Nat) : magOf (List.replicate n (0 : Word)) = 0 := by
  induction n with
  | zero => rfl
  | succ n ih => rw [List.replicate_succ, magOf_cons, ih]; rfl

theorem toWords_length (n m : Nat) : (toWords n m).length = n := by
  induction n generalizing m with
  | zero => rfl
  | succ n ih => simp [toWords, ih]

theorem magOf_toWords (n m : Nat) : magOf (toWords n m) = m % 2 ^ (32 * n) := by
  induction n generalizing m with
  | zero => simp [toWords, Nat.mod_one]
  | succ n ih =>
    have : 2 ^ (32 * (n + 1)) = 2 ^ 32 * 2 ^ (32 * n) := two_pow_words_succ n
    rw [toWords, magOf_cons, ih, this, Nat.mod_mul, BitVec.toNat_ofNat]

theorem magOf_tail (ws : List Word) : magOf ws = (ws.headD 0).toNat + 2 ^ 32 * magOf ws.tail := by
  cases ws <;> simp

/-- Word `j` of a word list is word `j` of its magnitude, 0 beyond its length (R14, R106). -/
theorem toNat_getD_eq (ws : List Word) (j : Nat) :
    (ws.getD j 0).toNat = magOf ws / 2 ^ (32 * j) % 2 ^ 32 := by
  induction ws generalizing j with
  | nil => simp
  | cons w ws ih =>
    have hw := w.isLt
    cases j with
    | zero => simp; omega
    | succ j =>
      have hp : 2 ^ (32 * (j + 1)) = 2 ^ 32 * 2 ^ (32 * j) := two_pow_words_succ j
      have hd : magOf (w :: ws) / 2 ^ 32 = magOf ws := by rw [magOf_cons]; omega
      rw [List.getD_cons_succ, ih, hp, ← Nat.div_div_eq_div_mul, hd]

/-! ### Bit lengths (R14, R120) -/

/-- `bl(m)` is the least n with `m < 2^n`. -/
theorem lt_two_pow_iff_bl_le (m n : Nat) : m < 2 ^ n ↔ bl m ≤ n := by
  unfold bl
  split
  · next h => subst h; simp
  · next h => rw [← Nat.log_lt_iff_lt_pow (by norm_num) h, Nat.log2_eq_log_two]; omega

theorem lt_two_pow_bl (m : Nat) : m < 2 ^ bl m := (lt_two_pow_iff_bl_le m _).2 le_rfl

@[simp] theorem bl_zero : bl 0 = 0 := rfl

theorem bl_pos {m : Nat} (h : m ≠ 0) : 0 < bl m := by simp [bl, h]

theorem two_pow_le_of_bl {m : Nat} (h : m ≠ 0) : 2 ^ (bl m - 1) ≤ m := by
  have := bl_pos h
  by_contra hc
  have := (lt_two_pow_iff_bl_le m (bl m - 1)).1 (by omega)
  omega

theorem bl_mono {a b : Nat} (h : a ≤ b) : bl a ≤ bl b :=
  (lt_two_pow_iff_bl_le a _).1 (lt_of_le_of_lt h (lt_two_pow_bl b))

/-! ### Word counts (R14) -/

theorem nw_pos (m : Nat) : 1 ≤ nw m := by simp [nw]

/-- `m` fits in `L >= 1` words exactly when `nw(m) <= L`. -/
theorem nw_le_iff {m L : Nat} (hL : 1 ≤ L) : nw m ≤ L ↔ m < 2 ^ (32 * L) := by
  rw [lt_two_pow_iff_bl_le]; simp only [nw]; omega

theorem lt_two_pow_nw (m : Nat) : m < 2 ^ (32 * nw m) := (nw_le_iff (nw_pos m)).1 le_rfl

/-! ### Normalized values (R22) -/

@[simp] theorem mkBig_mag (s : Bool) (m : Nat) : (mkBig s m).mag = m := by
  simp only [mkBig, BigInt.mag, magOf_toWords]
  exact Nat.mod_eq_of_lt (lt_two_pow_nw m)

@[simp] theorem mkBig_len (s : Bool) (m : Nat) : (mkBig s m).len = nw m := toWords_length _ _

@[simp] theorem mkBig_sign (s : Bool) (m : Nat) : (mkBig s m).sign = (s && decide (m ≠ 0)) := rfl

theorem top_eq_getD (x : BigInt) : x.top = x.words.getD (x.len - 1) 0 := by
  unfold BigInt.top BigInt.len at *
  rw [List.getLastD_eq_getLast?, List.getLast?_eq_getElem?, List.getD_eq_getElem?_getD]

/-- The top word of a non-empty register is its magnitude over the weight of that word. -/
theorem toNat_top (x : BigInt) (h : 1 ≤ x.len) : x.top.toNat = x.mag / 2 ^ (32 * (x.len - 1)) := by
  rw [top_eq_getD x, toNat_getD_eq]
  have hlt : x.mag < 2 ^ (32 * x.len) := magOf_lt x.words
  have : 2 ^ (32 * x.len) = 2 ^ (32 * (x.len - 1)) * 2 ^ 32 := by rw [← pow_add]; congr 1; omega
  exact Nat.mod_eq_of_lt (Nat.div_lt_of_lt_mul (this ▸ hlt))

/-- A value built by `mk` is normalized when its magnitude is within capacity (R22, R23). -/
theorem mkBig_norm (s : Bool) {m : Nat} (h : nw m ≤ Config.MAXW) : (mkBig s m).Norm := by
  refine ⟨by simpa using nw_pos m, by simpa using h, ?_, by simp +contextual⟩
  by_cases h1 : nw m = 1
  · left; simpa using h1
  · right
    intro ht
    have h2 : 2 ≤ nw m := by have := nw_pos m; omega
    have hz := toNat_top (mkBig s m) (by simpa using nw_pos m)
    rw [ht] at hz
    simp only [mkBig_mag, mkBig_len, BitVec.ofNat_eq_ofNat, BitVec.toNat_zero] at hz
    have hlt : m < 2 ^ (32 * (nw m - 1)) := by
      by_contra hc
      have := Nat.div_pos (Nat.not_lt.1 hc) (by positivity)
      omega
    have := (nw_le_iff (m := m) (L := nw m - 1) (by omega)).2 hlt
    omega

/-- A normalized register's length is `nw(mag)` (R21, R22). -/
theorem Norm.len_eq {x : BigInt} (h : x.Norm) : x.len = nw x.mag := by
  obtain ⟨h1, -, h3, -⟩ := h
  have hlt : x.mag < 2 ^ (32 * x.len) := magOf_lt x.words
  have hle := (nw_le_iff h1).2 hlt
  rcases h3 with h3 | h3
  · have := nw_pos x.mag; omega
  · by_contra hne
    have h2 : x.mag < 2 ^ (32 * (x.len - 1)) :=
      (nw_le_iff (by have := nw_pos x.mag; omega)).1 (by omega)
    have := toNat_top x h1
    rw [Nat.div_eq_of_lt h2] at this
    exact h3 (BitVec.eq_of_toNat_eq this)

theorem Norm.mag_lt {x : BigInt} (h : x.Norm) : x.mag < 2 ^ (32 * Config.MAXW) :=
  lt_of_lt_of_le (magOf_lt x.words) (Nat.pow_le_pow_right (by norm_num) (Nat.mul_le_mul_left _ h.2.1))

/-- R120's formula is the bit length of the magnitude, for a normalized register. -/
theorem Norm.bl_eq {x : BigInt} (h : x.Norm) : x.bl = bl x.mag := by
  have hlen := Norm.len_eq h
  obtain ⟨h1, -, h3, -⟩ := h
  unfold BigInt.bl
  by_cases hm : x.mag = 0
  · simp [hm, bl]
  · have htop := toNat_top x h1
    have hlt : x.mag < 2 ^ (32 * x.len) := magOf_lt x.words
    have hne : x.mag / 2 ^ (32 * (x.len - 1)) ≠ 0 := by
      intro h0
      have h2 : x.mag < 2 ^ (32 * (x.len - 1)) := by
        rcases Nat.div_eq_zero_iff.1 h0 with h' | h'
        · exact absurd h' (by positivity)
        · exact h'
      by_cases h1' : x.len = 1
      · rw [h1'] at h2; simp at h2; exact hm h2
      · have := (nw_le_iff (m := x.mag) (L := x.len - 1) (by omega)).2 h2
        omega
    have hlog : Nat.log2 x.top.toNat = Nat.log2 x.mag - 32 * (x.len - 1) := by
      rw [htop, Nat.log2_eq_log_two, Nat.log2_eq_log_two]
      exact Nat.log_div_base_pow 2 x.mag (32 * (x.len - 1))
    have hge : 32 * (x.len - 1) ≤ Nat.log2 x.mag := by
      rw [Nat.log2_eq_log_two]
      apply Nat.le_log_of_pow_le (by norm_num)
      by_contra hc
      exact hne (Nat.div_eq_of_lt (Nat.not_le.1 hc))
    have hlt' : Nat.log2 x.mag < 32 * x.len := by
      rw [Nat.log2_eq_log_two]; exact Nat.log_lt_of_lt_pow hm hlt
    simp only [hm, if_false, clz32, hlog, bl]
    omega

/-- Two normalized registers of one sign and one magnitude are equal (R21). -/
theorem toWords_magOf (ws : List Word) : toWords ws.length (magOf ws) = ws := by
  induction ws with
  | nil => rfl
  | cons w ws ih =>
    have hw := w.isLt
    simp only [List.length_cons, toWords, magOf_cons, List.cons.injEq]
    refine ⟨BitVec.eq_of_toNat_eq (by simp only [BitVec.toNat_ofNat]; omega), ?_⟩
    have : (w.toNat + 2 ^ 32 * magOf ws) / 2 ^ 32 = magOf ws := by omega
    rw [this, ih]

/-- A normalized register is `mk` of its sign and magnitude (R22). -/
theorem Norm.eq_mkBig {x : BigInt} (h : x.Norm) : x = mkBig x.sign x.mag := by
  have hlen := Norm.len_eq h
  have h4 := h.2.2.2
  cases x with
  | mk s ws =>
    simp only [mkBig, BigInt.mk.injEq]
    constructor
    · by_cases h0 : magOf ws = 0
      · have hs : s = false := h4 h0
        simp [hs]
      · simp [BigInt.mag, h0]
    · have : ws.length = nw (magOf ws) := hlen
      conv_lhs => rw [← toWords_magOf ws]
      rw [this]; rfl

theorem Norm.nw_le {x : BigInt} (h : x.Norm) : nw x.mag ≤ Config.MAXW := Norm.len_eq h ▸ h.2.1

/-! ### Trimming keeps the magnitude (R135, R136, R151) -/

theorem magOf_reverse_trimHigh (ws : List Word) : magOf (trimHigh ws).reverse = magOf ws.reverse := by
  fun_induction trimHigh ws with
  | case1 => rfl
  | case2 => rfl
  | case3 v ws ih => rw [ih, List.reverse_cons (a := (0 : Word)), magOf_append]; simp
  | case4 => rfl

@[simp] theorem magOf_trimAll (ws : List Word) : magOf (trimAll ws) = magOf ws := by
  rw [trimAll, magOf_reverse_trimHigh, List.reverse_reverse]

@[simp] theorem magOf_trimOne (ws : List Word) : magOf (trimOne ws) = magOf ws := by
  unfold trimOne
  split
  · next h =>
    obtain ⟨h1, h2⟩ := h
    have hne : ws ≠ [] := by rintro rfl; simp at h1
    conv_rhs => rw [← List.dropLast_append_getLast hne, magOf_append]
    have : ws.getLast hne = 0 := by simpa [List.getLastD_eq_getLast?, List.getLast?_eq_getLast_of_ne_nil hne] using h2
    simp [this]
  · rfl

/-! ### Sizing (R205) -/

theorem sized_eq_ok {α : Type} {n : Nat} {x y : α} (h : sized n x = .ok y) : n ≤ Config.MAXW ∧ x = y := by
  unfold sized at h
  split at h
  · cases h
  · exact ⟨by omega, by cases h; rfl⟩

theorem sized_of_le {α : Type} {n : Nat} (x : α) (h : n ≤ Config.MAXW) : sized n x = .ok x := by
  simp [sized, Nat.not_lt.2 h]

theorem sized_of_gt {α : Type} {n : Nat} (x : α) (h : Config.MAXW < n) : sized n x = .error .capacity := by
  simp [sized, h]

end Sys2Proof.Machine
end

