-- ==== Sys2Proof/Laws/AddSub.lean ====
section
/-! SUPPORT. What the comparison, addition, subtraction and negation functions of the datapath return
(R122, R135 to R139), for normalized operands. -/

namespace Sys2Proof.Machine

/-! ### Comparison (R122) -/

theorem magOf_reverse_lt (as bs : List Word) (a b : Word) (h : as.length = bs.length) (hab : a < b) :
    magOf (a :: as).reverse < magOf (b :: bs).reverse := by
  have h1 := magOf_lt as.reverse
  have hlt : a.toNat + 1 ≤ b.toNat := hab
  rw [List.length_reverse] at h1
  simp only [List.reverse_cons, magOf_append, List.length_reverse, magOf_cons, magOf_nil,
    Nat.mul_zero, Nat.add_zero, ← h]
  have := Nat.mul_le_mul_left (2 ^ (32 * as.length)) hlt
  rw [Nat.mul_add, Nat.mul_one] at this
  omega

/-- The word loop decides the order of the magnitudes of two equally long lists. -/
theorem cmpWords_eq (as bs : List Word) (h : as.length = bs.length) :
    cmpWords as bs =
      if magOf as.reverse > magOf bs.reverse then .greater
      else if magOf as.reverse < magOf bs.reverse then .less else .equal := by
  induction as generalizing bs with
  | nil => cases bs with
    | nil => simp [cmpWords]
    | cons => simp at h
  | cons a as ih => cases bs with
    | nil => simp at h
    | cons b bs =>
      have hl : as.length = bs.length := by simpa using h
      unfold cmpWords
      by_cases h1 : a > b
      · have := magOf_reverse_lt bs as b a hl.symm h1
        rw [if_pos h1, if_pos this]
      · by_cases h2 : a < b
        · have := magOf_reverse_lt as bs a b hl h2
          rw [if_neg h1, if_pos h2, if_neg (by omega), if_pos this]
        · have hab : a = b := BitVec.eq_of_toNat_eq (by
            have h1' : ¬ b.toNat < a.toNat := h1
            have h2' : ¬ a.toNat < b.toNat := h2
            omega)
          subst hab
          rw [if_neg h1, if_neg h2, ih bs hl]
          simp only [List.reverse_cons, magOf_append, List.length_reverse, hl, gt_iff_lt,
            Nat.add_lt_add_iff_right]

/-- `cmpmag` orders normalized registers by magnitude (R122). -/
theorem cmpmag_eq {a b : BigInt} (ha : a.Norm) (hb : b.Norm) :
    cmpmag a b = if a.mag > b.mag then .greater else if a.mag < b.mag then .less else .equal := by
  have key : ∀ {x y : BigInt}, x.Norm → y.Norm → x.len < y.len → x.mag < y.mag := by
    intro x y hx hy hlt
    have h1 : x.mag < 2 ^ (32 * x.len) := magOf_lt x.words
    by_contra hc
    have h2 : y.mag < 2 ^ (32 * x.len) := by omega
    have := (nw_le_iff hx.1).2 h2
    rw [← Norm.len_eq hy] at this
    omega
  unfold cmpmag
  by_cases h1 : a.len > b.len
  · rw [if_pos h1, if_pos (key hb ha h1)]
  · by_cases h2 : a.len < b.len
    · have := key ha hb h2
      rw [if_neg h1, if_pos h2, if_neg (by omega), if_pos this]
    · rw [if_neg h1, if_neg h2, cmpWords_eq]
      · simp only [List.reverse_reverse]; rfl
      · have h3 : a.words.length = b.words.length := by
          show a.len = b.len
          omega
        simpa using h3

/-! ### Magnitude sum (R135) -/

theorem magOf_addLoop (n : Nat) (as bs : List Word) (c : Nat) :
    magOf (addLoop n as bs c) = (magOf as + magOf bs + c) % 2 ^ (32 * n) := by
  induction n generalizing as bs c with
  | zero => simp [addLoop, Nat.mod_one]
  | succ n ih =>
    have hp : 2 ^ (32 * (n + 1)) = 2 ^ 32 * 2 ^ (32 * n) := two_pow_words_succ n
    have e1 : (magOf as + magOf bs + c) % 2 ^ 32 =
        ((as.headD 0).toNat + (bs.headD 0).toNat + c) % 2 ^ 32 := by
      rw [magOf_tail as, magOf_tail bs]; omega
    have e2 : (magOf as + magOf bs + c) / 2 ^ 32 = magOf as.tail + magOf bs.tail +
        ((as.headD 0).toNat + (bs.headD 0).toNat + c) / 2 ^ 32 := by
      rw [magOf_tail as, magOf_tail bs]; omega
    rw [addLoop, magOf_cons, ih, hp, Nat.mod_mul, BitVec.toNat_ofNat, e1, e2]

/-- `addmag` returns the exact sum, or CAPACITY when `max(bl) + 1` bits need more than MAXW words. -/
theorem addmag_eq {a b : BigInt} (ha : a.Norm) (hb : b.Norm) :
    addmag a b = if Config.MAXW < (max (bl a.mag) (bl b.mag) + 1 + 31) / 32 then .error .capacity
      else .ok (a.mag + b.mag) := by
  have hL : addLength a b = (max (bl a.mag) (bl b.mag) + 1 + 31) / 32 := by
    simp only [addLength, wordsFor, Norm.bl_eq ha, Norm.bl_eq hb]
  unfold addmag
  rw [hL]
  split
  · next h => exact sized_of_gt _ h
  · next h =>
    rw [sized_of_le _ (Nat.not_lt.1 h), magOf_trimOne, magOf_addLoop]
    congr 1
    apply Nat.mod_eq_of_lt
    have h1 : a.mag < 2 ^ max (bl a.mag) (bl b.mag) := (lt_two_pow_iff_bl_le _ _).2 (le_max_left _ _)
    have h2 : b.mag < 2 ^ max (bl a.mag) (bl b.mag) := (lt_two_pow_iff_bl_le _ _).2 (le_max_right _ _)
    have h3 : 2 ^ (max (bl a.mag) (bl b.mag) + 1) ≤
        2 ^ (32 * ((max (bl a.mag) (bl b.mag) + 1 + 31) / 32)) :=
      Nat.pow_le_pow_right (by norm_num) (by omega)
    rw [pow_succ] at h3
    show magOf a.words + magOf b.words + 0 < _
    have h4 : a.mag = magOf a.words := rfl
    have h5 : b.mag = magOf b.words := rfl
    omega

/-- A sum `addmag` returns is within capacity. -/
theorem addmag_ok_nw {a b : BigInt} (ha : a.Norm) (hb : b.Norm) {m : Nat} (h : addmag a b = .ok m) :
    m = a.mag + b.mag ∧ nw m ≤ Config.MAXW := by
  rw [addmag_eq ha hb] at h
  split at h
  · cases h
  · next hc =>
    have hm : a.mag + b.mag = m := by injection h
    refine ⟨hm.symm, ?_⟩
    rw [nw_le_iff (by norm_num), lt_two_pow_iff_bl_le, ← hm]
    refine le_trans ((lt_two_pow_iff_bl_le _ (max (bl a.mag) (bl b.mag) + 1)).1 ?_) (by omega)
    have h1 : a.mag < 2 ^ max (bl a.mag) (bl b.mag) := (lt_two_pow_iff_bl_le _ _).2 (le_max_left _ _)
    have h2 : b.mag < 2 ^ max (bl a.mag) (bl b.mag) := (lt_two_pow_iff_bl_le _ _).2 (le_max_right _ _)
    rw [pow_succ]; omega

/-! ### Magnitude difference (R136) -/

theorem magOf_subLoop (n : Nat) (as bs : List Word) (c : Nat) (hc : c ≤ 1)
    (ha : magOf as < 2 ^ (32 * n)) (hge : magOf bs + c ≤ magOf as) :
    magOf (subLoop n as bs c) = magOf as - magOf bs - c := by
  induction n generalizing as bs c with
  | zero => simp [subLoop] at *; omega
  | succ n ih =>
    have hp : 2 ^ (32 * (n + 1)) = 2 ^ 32 * 2 ^ (32 * n) := two_pow_words_succ n
    have ha' := magOf_tail as
    have hb' := magOf_tail bs
    have hwa := (as.headD 0).isLt
    have hwb := (bs.headD 0).isLt
    have hat : magOf as.tail < 2 ^ (32 * n) := by
      rw [hp] at ha
      by_contra hcon
      have := Nat.mul_le_mul_left (2 ^ 32) (Nat.not_lt.1 hcon)
      omega
    rw [subLoop]
    split
    · next ht =>
      rw [magOf_cons, ih _ _ 1 le_rfl hat (by omega), BitVec.toNat_ofInt]
      omega
    · next ht =>
      rw [magOf_cons, ih _ _ 0 (by omega) hat (by omega), BitVec.toNat_ofInt]
      omega

/-- `submag` returns the exact difference, or INVALID_OPERAND when it would be negative. -/
theorem submag_eq {a b : BigInt} :
    submag a b = if a.mag < b.mag then .error .invalidOperand else .ok (a.mag - b.mag) := by
  unfold submag
  split
  · rfl
  · next h =>
    rw [magOf_trimAll, magOf_subLoop _ _ _ _ (by omega)]
    · rfl
    · refine lt_of_lt_of_le (magOf_lt a.words) (Nat.pow_le_pow_right (by norm_num) ?_)
      exact Nat.mul_le_mul_left _ (le_max_left a.len b.len)
    · have h1 : a.mag = magOf a.words := rfl
      have h2 : b.mag = magOf b.words := rfl
      omega

/-! ### Negation (R137) -/

@[simp] theorem neg_mag (x : BigInt) : (neg x).mag = x.mag := mkBig_mag _ _

theorem neg_norm {x : BigInt} (h : x.Norm) : (neg x).Norm := mkBig_norm _ (Norm.nw_le h)

theorem neg_val (x : BigInt) : (neg x).val = -x.val := by
  unfold BigInt.val
  rw [neg_mag, neg, mkBig_sign]
  by_cases h : x.mag = 0
  · simp [h]
  · cases hs : x.sign <;> simp [h]

/-! ### Signed values -/

theorem ofInt_val (v : Int) : (BigInt.ofInt v).val = v := by
  unfold BigInt.ofInt BigInt.val
  by_cases h : v < 0
  · have : v.natAbs ≠ 0 := by omega
    simp only [mkBig_sign, mkBig_mag, h, this, decide_true, ne_eq, not_false_eq_true, Bool.and_self, if_true]
    omega
  · simp only [mkBig_sign, mkBig_mag, h, decide_false, Bool.false_and]
    simp only [Bool.false_eq_true, if_false]
    omega

/-- A normalized register is the one its value makes. -/
theorem Norm.eq_ofInt {x : BigInt} (h : x.Norm) : x = BigInt.ofInt x.val := by
  conv_lhs => rw [Norm.eq_mkBig h]
  unfold BigInt.ofInt BigInt.val
  by_cases hs : x.sign = true
  · by_cases hm : x.mag = 0
    · have := h.2.2.2 hm; simp [this] at hs
    · have : 0 < x.mag := Nat.pos_of_ne_zero hm
      simp [hs, this]
  · have : ¬ (x.mag : Int) < 0 := by omega
    simp [hs, this]

theorem mkBig_eq_ofInt (s : Bool) (m : Nat) :
    mkBig s m = BigInt.ofInt (if s then -(m : Int) else m) := by
  by_cases hm : m = 0
  · subst hm; cases s <;> rfl
  · have : 0 < m := Nat.pos_of_ne_zero hm
    have hn : ¬ (m : Int) < 0 := by omega
    cases s <;> simp [BigInt.ofInt, this, hn]

/-! ### Signed sum and difference (R138, R139) -/

/-- `sadd` returns the register of the exact sum; CAPACITY only when the signs match and the
provisional length exceeds MAXW. -/
theorem sadd_eq {a b : BigInt} (ha : a.Norm) (hb : b.Norm) :
    sadd a b = if a.sign = b.sign ∧ Config.MAXW < (max (bl a.mag) (bl b.mag) + 1 + 31) / 32
      then .error .capacity else .ok (BigInt.ofInt (a.val + b.val)) := by
  unfold sadd
  by_cases hs : a.sign = b.sign
  · rw [if_pos hs, addmag_eq ha hb]
    by_cases hc : Config.MAXW < (max (bl a.mag) (bl b.mag) + 1 + 31) / 32
    · simp only [hc, hs, and_self, if_true]; rfl
    · rw [if_neg hc, if_neg (by tauto)]
      show Except.ok (mkBig a.sign (a.mag + b.mag)) = _
      rw [mkBig_eq_ofInt]
      unfold BigInt.val
      rw [← hs]
      cases a.sign <;> simp; ring_nf
  · rw [if_neg hs, if_neg (by tauto), cmpmag_eq ha hb]
    have hval : ∀ x : BigInt, x.val = if x.sign then -(x.mag : Int) else x.mag := fun _ => rfl
    by_cases h1 : a.mag > b.mag
    · rw [if_pos h1]
      simp only [submag_eq, if_neg (show ¬ a.mag < b.mag by omega)]
      show Except.ok (mkBig a.sign (a.mag - b.mag)) = _
      rw [mkBig_eq_ofInt, hval, hval]
      congr 2
      revert hs
      cases a.sign <;> cases b.sign <;> simp <;> omega
    · by_cases h2 : a.mag < b.mag
      · rw [if_neg h1, if_pos h2]
        simp only [submag_eq, if_neg (show ¬ b.mag < a.mag by omega)]
        show Except.ok (mkBig b.sign (b.mag - a.mag)) = _
        rw [mkBig_eq_ofInt, hval, hval]
        congr 2
        revert hs
        cases a.sign <;> cases b.sign <;> simp <;> omega
      · rw [if_neg h1, if_neg h2]
        show Except.ok (mkBig false 0) = _
        rw [mkBig_eq_ofInt, hval, hval]
        congr 2
        revert hs
        cases a.sign <;> cases b.sign <;> simp <;> omega

/-- A value `sadd` returns is normalized. -/
theorem sadd_ok {a b x : BigInt} (ha : a.Norm) (hb : b.Norm) (h : sadd a b = .ok x) :
    x = BigInt.ofInt (a.val + b.val) ∧ x.Norm := by
  have heq := sadd_eq ha hb
  rw [h] at heq
  split at heq
  · cases heq
  · next hc =>
    have hx : x = BigInt.ofInt (a.val + b.val) := by injection heq
    refine ⟨hx, hx ▸ mkBig_norm _ ?_⟩
    rw [nw_le_iff (by norm_num)]
    have hA := Norm.mag_lt ha
    have hB := Norm.mag_lt hb
    by_cases hs : a.sign = b.sign
    · have hok : addmag a b = .ok (a.mag + b.mag) := by
        rw [addmag_eq ha hb, if_neg fun hcap => hc ⟨hs, hcap⟩]
      have := (addmag_ok_nw ha hb hok).2
      rw [nw_le_iff (by norm_num)] at this
      refine lt_of_le_of_lt ?_ this
      clear this hA hB hok heq h
      unfold BigInt.val
      split <;> split <;> omega
    · refine lt_of_le_of_lt ?_ (max_lt hA hB)
      clear hA hB
      unfold BigInt.val
      revert hs
      cases a.sign <;> cases b.sign <;> simp <;> omega

/-- `ssub` returns the register of the exact difference (R139). -/
theorem ssub_eq {a b : BigInt} (ha : a.Norm) (hb : b.Norm) :
    ssub a b = if a.sign = (neg b).sign ∧ Config.MAXW < (max (bl a.mag) (bl b.mag) + 1 + 31) / 32
      then .error .capacity else .ok (BigInt.ofInt (a.val - b.val)) := by
  unfold ssub
  rw [sadd_eq ha (neg_norm hb), neg_mag, neg_val, Int.sub_eq_add_neg]

end Sys2Proof.Machine
end

