-- ==== Sys2Proof/Laws/Decimal.lean ====
section
/-! SUPPORT. What the decimal converter returns (R171 to R173), for a normalized operand. -/

namespace Sys2Proof.Machine

/-! ### The double-and-add loop (R172) -/

theorem doubleAdd_length (dg : List Nat) (c : Nat) : (doubleAdd dg c).length = dg.length := by
  induction dg generalizing c with
  | nil => rfl
  | cons d ds ih => simp [doubleAdd, ih]

theorem doubleAdd_lt_ten (dg : List Nat) (c : Nat) : ∀ d ∈ doubleAdd dg c, d < 10 := by
  induction dg generalizing c with
  | nil => simp [doubleAdd]
  | cons d ds ih =>
    intro e he
    rcases List.mem_cons.1 he with rfl | he
    · omega
    · exact ih _ e he

/-- One step doubles the number the digits hold and adds the bit, modulo the buffer's size. -/
theorem ofDigits_doubleAdd (dg : List Nat) (c : Nat) :
    Nat.ofDigits 10 (doubleAdd dg c) = (2 * Nat.ofDigits 10 dg + c) % 10 ^ dg.length := by
  induction dg generalizing c with
  | nil => simp [doubleAdd, Nat.mod_one]
  | cons d ds ih =>
    rw [doubleAdd, Nat.ofDigits_cons, ih, Nat.ofDigits_cons, List.length_cons, pow_succ, Nat.mul_comm _ 10,
      Nat.mod_mul]
    have e1 : (2 * (d + 10 * Nat.ofDigits 10 ds) + c) % 10 = (2 * d + c) % 10 := by omega
    have e2 : (2 * (d + 10 * Nat.ofDigits 10 ds) + c) / 10 = 2 * Nat.ofDigits 10 ds + (2 * d + c) / 10 := by
      omega
    rw [e1, e2]

theorem bit_eq (x : BigInt) (b : Nat) : x.bit b = x.mag / 2 ^ b % 2 := by
  have h1 : x.word (b / 32) = x.words.getD (b / 32) 0 := rfl
  have hb := Nat.div_add_mod b 32
  have hlt : b % 32 < 32 := Nat.mod_lt _ (by norm_num)
  have hbit : x.bit b = (x.word (b / 32)).toNat / 2 ^ (b % 32) % 2 := by
    unfold BigInt.bit
    rw [BitVec.getLsbD, Nat.testBit_eq_decide_div_mod_eq]
    rcases Nat.mod_two_eq_zero_or_one ((x.word (b / 32)).toNat / 2 ^ (b % 32)) with h | h <;> simp [h]
  have hpow : (2 : Nat) ^ 32 = 2 ^ (b % 32) * (2 * 2 ^ (31 - b % 32)) := by
    rw [← pow_succ', ← pow_add]; congr 1; omega
  have hb2 : 2 ^ b = 2 ^ (32 * (b / 32)) * 2 ^ (b % 32) := by rw [← pow_add, hb]
  rw [hbit, h1, toNat_getD_eq, hb2, ← Nat.div_div_eq_div_mul, hpow, Nat.mod_mul_right_div_self,
    Nat.mod_mul_right_mod]
  rfl

/-- After the bits from `n-1` down to 0, the digits hold the number whose upper part was there, with
those bits appended, if the buffer is large enough. -/
theorem ofDigits_decLoop (x : BigInt) (n : Nat) (dg : List Nat)
    (hv : Nat.ofDigits 10 dg = x.mag / 2 ^ n) (hsize : x.mag < 10 ^ dg.length) :
    Nat.ofDigits 10 (decLoop x n dg) = x.mag := by
  induction n generalizing dg with
  | zero => simpa [decLoop] using hv
  | succ n ih =>
    have hstep : 2 * (x.mag / 2 ^ (n + 1)) + x.mag / 2 ^ n % 2 = x.mag / 2 ^ n := by
      rw [pow_succ, ← Nat.div_div_eq_div_mul]; omega
    refine ih _ ?_ (by rwa [doubleAdd_length])
    rw [ofDigits_doubleAdd, hv, bit_eq, hstep]
    exact Nat.mod_eq_of_lt (lt_of_le_of_lt (Nat.div_le_self _ _) hsize)

theorem decLoop_length (x : BigInt) (n : Nat) (dg : List Nat) : (decLoop x n dg).length = dg.length := by
  induction n generalizing dg with
  | zero => rfl
  | succ n ih => rw [decLoop, ih, doubleAdd_length]

theorem decLoop_lt_ten (x : BigInt) (n : Nat) (dg : List Nat) (h : ∀ d ∈ dg, d < 10) :
    ∀ d ∈ decLoop x n dg, d < 10 := by
  induction n generalizing dg with
  | zero => simpa [decLoop] using h
  | succ n ih => exact ih _ (doubleAdd_lt_ten _ _)

/-! ### The size of the working buffer (R172) -/

/-- `2^100000 <= 10^30103`: 0.30103 is above log10(2). -/
theorem two_pow_le_ten_pow : (2 : Nat) ^ 100000 ≤ 10 ^ 30103 := by decide +kernel

/-- A number of `n` bits has at most `ceil(0.30103 * n)` decimal digits, so it fits the buffer. -/
theorem lt_ten_pow_decDigits {m n : Nat} (h : m < 2 ^ n) : m < 10 ^ decDigits n := by
  refine lt_of_lt_of_le h ?_
  have h1 : (2 ^ n) ^ 100000 ≤ (10 ^ decDigits n) ^ 100000 := by
    calc (2 ^ n) ^ 100000 = (2 ^ 100000) ^ n := by rw [← pow_mul, ← pow_mul, Nat.mul_comm]
      _ ≤ (10 ^ 30103) ^ n := Nat.pow_le_pow_left two_pow_le_ten_pow n
      _ = 10 ^ (30103 * n) := by rw [← pow_mul]
      _ ≤ 10 ^ (decDigits n * 100000) := Nat.pow_le_pow_right (by norm_num) (by unfold decDigits; omega)
      _ = _ := by rw [← pow_mul]
  exact (Nat.pow_le_pow_iff_left (by norm_num)).1 h1

/-! ### The string -/

/-- The trim keeps the number and leaves no leading zero but a lone one. -/
theorem trimDigits_reverse (ds : List Nat) (h : ∀ d ∈ ds, d < 10) (hne : ds ≠ []) :
    (trimDigits ds).reverse =
      if Nat.ofDigits 10 ds.reverse = 0 then [0] else Nat.digits 10 (Nat.ofDigits 10 ds.reverse) := by
  fun_induction trimDigits ds with
  | case1 => exact absurd rfl hne
  | case2 d =>
    have hd : d < 10 := h d (by simp)
    by_cases h0 : d = 0
    · simp [h0]
    · simp [h0, Nat.digits_of_lt 10 d h0 hd]
  | case3 e ds ih =>
    rw [ih (fun d hd => h d (List.mem_cons_of_mem _ hd)) (by simp)]
    have hz : Nat.ofDigits 10 (0 :: e :: ds).reverse = Nat.ofDigits 10 (e :: ds).reverse := by
      rw [List.reverse_cons (a := 0), Nat.ofDigits_append]; simp
    rw [hz]
  | case4 d e ds hd0 =>
    have hrev : (d :: e :: ds).reverse ≠ [] := by simp
    have hdig := Nat.digits_ofDigits 10 (by norm_num) (d :: e :: ds).reverse
      (fun l hl => h l (List.mem_reverse.1 hl)) (fun hn => by simpa using hd0)
    have hnz : Nat.ofDigits 10 (d :: e :: ds).reverse ≠ 0 := by
      intro h0
      rw [h0] at hdig
      simp at hdig
    rw [if_neg hnz, hdig]

/-- `dec(x)` is the sign and the decimal digits of the magnitude, without leading zeros (R171). -/
theorem dec_eq {x : BigInt} (hx : x.Norm) : dec x = decimalString x.sign x.mag := by
  have hsize := lt_ten_pow_decDigits (lt_two_pow_bl x.mag)
  have hval := ofDigits_decLoop x x.bl (List.replicate (decDigits x.bl) 0)
    (by rw [Norm.bl_eq hx, Nat.div_eq_of_lt (lt_two_pow_bl x.mag)]; exact Nat.ofDigits_replicate_zero)
    (by rw [Norm.bl_eq hx, List.length_replicate]; exact hsize)
  have hlen := decLoop_length x x.bl (List.replicate (decDigits x.bl) 0)
  have hlt := decLoop_lt_ten x x.bl (List.replicate (decDigits x.bl) 0)
    (fun d hd => by rw [(List.mem_replicate.1 hd).2]; norm_num)
  unfold dec decimalString
  generalize decLoop x x.bl (List.replicate (decDigits x.bl) 0) = dg at hval hlen hlt ⊢
  have hne : dg.reverse ≠ [] := by
    intro h0
    rw [List.reverse_eq_nil_iff.1 h0] at hlen
    simp [decDigits] at hlen
  have hkey := trimDigits_reverse dg.reverse (fun d hd => hlt d (List.mem_reverse.1 hd)) hne
  rw [List.reverse_reverse, hval] at hkey
  congr 1
  by_cases h0 : x.mag = 0
  · rw [if_pos h0] at hkey ⊢
    rw [← List.reverse_reverse (trimDigits dg.reverse), hkey]; rfl
  · rw [if_neg h0] at hkey ⊢
    rw [← List.reverse_reverse (trimDigits dg.reverse), hkey]; rfl

/-- `|dec(x)| <= 618` for every value a register can hold (R173). -/
theorem dec_length_le {x : BigInt} (hx : x.Norm) : (dec x).length ≤ 618 := by
  rw [dec_eq hx]
  have hdig : (Nat.digits 10 x.mag).length ≤ 617 := by
    rw [Nat.digits_length_le_iff (by norm_num)]
    exact lt_of_lt_of_le (Norm.mag_lt hx) (by decide +kernel)
  unfold decimalString
  rw [List.length_append]
  have h1 : (if x.sign then [(0x2D : Byte)] else []).length ≤ 1 := by split <;> simp
  have h2 : (if x.mag = 0 then [(0x30 : Byte)]
      else (Nat.digits 10 x.mag).reverse.map fun d => BitVec.ofNat 8 (0x30 + d)).length ≤ 617 := by
    split
    · simp
    · simpa using hdig
  omega

/-- A string has at least one character (R33). -/
theorem one_le_dec_length {x : BigInt} (hx : x.Norm) : 1 ≤ (dec x).length := by
  rw [dec_eq hx]
  unfold decimalString
  rw [List.length_append]
  by_cases h0 : x.mag = 0
  · simp [h0]
  · have : Nat.digits 10 x.mag ≠ []   := Nat.digits_ne_nil_iff_ne_zero.2 h0
    have := List.length_pos_of_ne_nil this
    rw [if_neg h0, List.length_map, List.length_reverse]
    omega

end Sys2Proof.Machine
end

