-- ==== Sys2Proof/Laws/State.lean ====
section
/-! SUPPORT. One lemma per field per update of State and STATUS, true by rfl, and reading a register
after a register update. -/

namespace Sys2Proof.Machine

/-! ### `setBr` -/

@[simp] theorem setBr_regs (s : State) (r : RegId) (x : BigInt) : (s.setBr r x).regs = s.regs.set r (some x) := rfl
@[simp] theorem setBr_status (s : State) (r : RegId) (x : BigInt) : (s.setBr r x).status = s.status := rfl
@[simp] theorem setBr_data (s : State) (r : RegId) (x : BigInt) : (s.setBr r x).data = s.data := rfl
@[simp] theorem setBr_karg (s : State) (r : RegId) (x : BigInt) : (s.setBr r x).karg = s.karg := rfl
@[simp] theorem setBr_decLen (s : State) (r : RegId) (x : BigInt) : (s.setBr r x).decLen = s.decLen := rfl
@[simp] theorem setBr_decBuf (s : State) (r : RegId) (x : BigInt) : (s.setBr r x).decBuf = s.decBuf := rfl
@[simp] theorem setBr_latch (s : State) (r : RegId) (x : BigInt) : (s.setBr r x).latch = s.latch := rfl
@[simp] theorem setBr_seq (s : State) (r : RegId) (x : BigInt) : (s.setBr r x).seq = s.seq := rfl
@[simp] theorem setBr_input (s : State) (r : RegId) (x : BigInt) : (s.setBr r x).input = s.input := rfl
@[simp] theorem setBr_readLog (s : State) (r : RegId) (x : BigInt) : (s.setBr r x).readLog = s.readLog := rfl
@[simp] theorem setBr_draws (s : State) (r : RegId) (x : BigInt) : (s.setBr r x).draws = s.draws := rfl

/-! ### `invalidate` -/

@[simp] theorem invalidate_regs (s : State) (r : RegId) : (s.invalidate r).regs = s.regs.set r none := rfl
@[simp] theorem invalidate_status (s : State) (r : RegId) : (s.invalidate r).status = s.status := rfl
@[simp] theorem invalidate_data (s : State) (r : RegId) : (s.invalidate r).data = s.data := rfl
@[simp] theorem invalidate_karg (s : State) (r : RegId) : (s.invalidate r).karg = s.karg := rfl
@[simp] theorem invalidate_decLen (s : State) (r : RegId) : (s.invalidate r).decLen = s.decLen := rfl
@[simp] theorem invalidate_decBuf (s : State) (r : RegId) : (s.invalidate r).decBuf = s.decBuf := rfl
@[simp] theorem invalidate_latch (s : State) (r : RegId) : (s.invalidate r).latch = s.latch := rfl
@[simp] theorem invalidate_seq (s : State) (r : RegId) : (s.invalidate r).seq = s.seq := rfl
@[simp] theorem invalidate_input (s : State) (r : RegId) : (s.invalidate r).input = s.input := rfl
@[simp] theorem invalidate_readLog (s : State) (r : RegId) : (s.invalidate r).readLog = s.readLog := rfl
@[simp] theorem invalidate_draws (s : State) (r : RegId) : (s.invalidate r).draws = s.draws := rfl

/-! ### `setData` -/

@[simp] theorem setData_regs (s : State) (v : Word) : (s.setData v).regs = s.regs := rfl
@[simp] theorem setData_status (s : State) (v : Word) : (s.setData v).status = s.status := rfl
@[simp] theorem setData_data (s : State) (v : Word) : (s.setData v).data = v := rfl
@[simp] theorem setData_karg (s : State) (v : Word) : (s.setData v).karg = s.karg := rfl
@[simp] theorem setData_decLen (s : State) (v : Word) : (s.setData v).decLen = s.decLen := rfl
@[simp] theorem setData_decBuf (s : State) (v : Word) : (s.setData v).decBuf = s.decBuf := rfl
@[simp] theorem setData_latch (s : State) (v : Word) : (s.setData v).latch = s.latch := rfl
@[simp] theorem setData_seq (s : State) (v : Word) : (s.setData v).seq = s.seq := rfl
@[simp] theorem setData_input (s : State) (v : Word) : (s.setData v).input = s.input := rfl
@[simp] theorem setData_readLog (s : State) (v : Word) : (s.setData v).readLog = s.readLog := rfl
@[simp] theorem setData_draws (s : State) (v : Word) : (s.setData v).draws = s.draws := rfl

/-! ### `writeDec` -/

@[simp] theorem writeDec_regs (s : State) (str : List Byte) : (s.writeDec str).regs = s.regs := rfl
@[simp] theorem writeDec_status (s : State) (str : List Byte) : (s.writeDec str).status = s.status := rfl
@[simp] theorem writeDec_data (s : State) (str : List Byte) : (s.writeDec str).data = s.data := rfl
@[simp] theorem writeDec_karg (s : State) (str : List Byte) : (s.writeDec str).karg = s.karg := rfl
@[simp] theorem writeDec_decLen (s : State) (str : List Byte) : (s.writeDec str).decLen = BitVec.ofNat 32 str.length := rfl
@[simp] theorem writeDec_decBuf (s : State) (str : List Byte) : (s.writeDec str).decBuf = decCells Config.MAXD 0 str := rfl
@[simp] theorem writeDec_latch (s : State) (str : List Byte) : (s.writeDec str).latch = s.latch := rfl
@[simp] theorem writeDec_seq (s : State) (str : List Byte) : (s.writeDec str).seq = s.seq := rfl
@[simp] theorem writeDec_input (s : State) (str : List Byte) : (s.writeDec str).input = s.input := rfl
@[simp] theorem writeDec_readLog (s : State) (str : List Byte) : (s.writeDec str).readLog = s.readLog := rfl
@[simp] theorem writeDec_draws (s : State) (str : List Byte) : (s.writeDec str).draws = s.draws := rfl

/-! ### `finish` -/

@[simp] theorem finish_regs (s : State) : (s.finish).regs = s.regs := rfl
@[simp] theorem finish_status (s : State) : (s.finish).status = s.status.finish := rfl
@[simp] theorem finish_data (s : State) : (s.finish).data = s.data := rfl
@[simp] theorem finish_karg (s : State) : (s.finish).karg = s.karg := rfl
@[simp] theorem finish_decLen (s : State) : (s.finish).decLen = s.decLen := rfl
@[simp] theorem finish_decBuf (s : State) : (s.finish).decBuf = s.decBuf := rfl
@[simp] theorem finish_latch (s : State) : (s.finish).latch = s.latch := rfl
@[simp] theorem finish_seq (s : State) : (s.finish).seq = s.seq := rfl
@[simp] theorem finish_input (s : State) : (s.finish).input = s.input := rfl
@[simp] theorem finish_readLog (s : State) : (s.finish).readLog = s.readLog := rfl
@[simp] theorem finish_draws (s : State) : (s.finish).draws = s.draws := rfl

/-! ### `takeFault` -/

@[simp] theorem takeFault_regs (s : State) (e : CmdFault) : (State.takeFault e s).regs = s.regs := rfl
@[simp] theorem takeFault_status (s : State) (e : CmdFault) : (State.takeFault e s).status = s.status.fault e := rfl
@[simp] theorem takeFault_data (s : State) (e : CmdFault) : (State.takeFault e s).data = s.data := rfl
@[simp] theorem takeFault_karg (s : State) (e : CmdFault) : (State.takeFault e s).karg = s.karg := rfl
@[simp] theorem takeFault_decLen (s : State) (e : CmdFault) : (State.takeFault e s).decLen = s.decLen := rfl
@[simp] theorem takeFault_decBuf (s : State) (e : CmdFault) : (State.takeFault e s).decBuf = s.decBuf := rfl
@[simp] theorem takeFault_latch (s : State) (e : CmdFault) : (State.takeFault e s).latch = s.latch := rfl
@[simp] theorem takeFault_seq (s : State) (e : CmdFault) : (State.takeFault e s).seq = s.seq := rfl
@[simp] theorem takeFault_input (s : State) (e : CmdFault) : (State.takeFault e s).input = s.input := rfl
@[simp] theorem takeFault_readLog (s : State) (e : CmdFault) : (State.takeFault e s).readLog = s.readLog := rfl
@[simp] theorem takeFault_draws (s : State) (e : CmdFault) : (State.takeFault e s).draws = s.draws := rfl

/-! ### `issue` -/

@[simp] theorem issue_regs (s : State) (c : Word) : (State.issue c s).regs = s.regs := rfl
@[simp] theorem issue_status (s : State) (c : Word) : (State.issue c s).status = s.status.issue := rfl
@[simp] theorem issue_data (s : State) (c : Word) : (State.issue c s).data = s.data := rfl
@[simp] theorem issue_karg (s : State) (c : Word) : (State.issue c s).karg = s.karg := rfl
@[simp] theorem issue_decLen (s : State) (c : Word) : (State.issue c s).decLen = s.decLen := rfl
@[simp] theorem issue_decBuf (s : State) (c : Word) : (State.issue c s).decBuf = s.decBuf := rfl
@[simp] theorem issue_latch (s : State) (c : Word) : (State.issue c s).latch = c := rfl
@[simp] theorem issue_seq (s : State) (c : Word) : (State.issue c s).seq = s.seq := rfl
@[simp] theorem issue_input (s : State) (c : Word) : (State.issue c s).input = s.input := rfl
@[simp] theorem issue_readLog (s : State) (c : Word) : (State.issue c s).readLog = s.readLog := rfl
@[simp] theorem issue_draws (s : State) (c : Word) : (State.issue c s).draws = s.draws := rfl

/-! ### `overrun` -/

@[simp] theorem overrun_regs (s : State) : (s.overrun).regs = s.regs := rfl
@[simp] theorem overrun_status (s : State) : (s.overrun).status = s.status.overrun := rfl
@[simp] theorem overrun_data (s : State) : (s.overrun).data = s.data := rfl
@[simp] theorem overrun_karg (s : State) : (s.overrun).karg = s.karg := rfl
@[simp] theorem overrun_decLen (s : State) : (s.overrun).decLen = s.decLen := rfl
@[simp] theorem overrun_decBuf (s : State) : (s.overrun).decBuf = s.decBuf := rfl
@[simp] theorem overrun_latch (s : State) : (s.overrun).latch = s.latch := rfl
@[simp] theorem overrun_seq (s : State) : (s.overrun).seq = s.seq := rfl
@[simp] theorem overrun_input (s : State) : (s.overrun).input = s.input := rfl
@[simp] theorem overrun_readLog (s : State) : (s.overrun).readLog = s.readLog := rfl
@[simp] theorem overrun_draws (s : State) : (s.overrun).draws = s.draws := rfl

/-! ### `render` -/

@[simp] theorem render_regs (s : State) (rd : RegId) (q : Sequencer) : (s.render rd q).regs = s.regs.set rd (some q.fk) := rfl
@[simp] theorem render_status (s : State) (rd : RegId) (q : Sequencer) : (s.render rd q).status = s.status := rfl
@[simp] theorem render_data (s : State) (rd : RegId) (q : Sequencer) : (s.render rd q).data = s.data := rfl
@[simp] theorem render_karg (s : State) (rd : RegId) (q : Sequencer) : (s.render rd q).karg = s.karg := rfl
@[simp] theorem render_decLen (s : State) (rd : RegId) (q : Sequencer) : (s.render rd q).decLen = BitVec.ofNat 32 (dec q.fk).length := rfl
@[simp] theorem render_decBuf (s : State) (rd : RegId) (q : Sequencer) : (s.render rd q).decBuf = decCells Config.MAXD 0 (dec q.fk) := rfl
@[simp] theorem render_latch (s : State) (rd : RegId) (q : Sequencer) : (s.render rd q).latch = s.latch := rfl
@[simp] theorem render_seq (s : State) (rd : RegId) (q : Sequencer) : (s.render rd q).seq = { q with fsm := .idle } := rfl
@[simp] theorem render_input (s : State) (rd : RegId) (q : Sequencer) : (s.render rd q).input = s.input := rfl
@[simp] theorem render_readLog (s : State) (rd : RegId) (q : Sequencer) : (s.render rd q).readLog = s.readLog := rfl
@[simp] theorem render_draws (s : State) (rd : RegId) (q : Sequencer) : (s.render rd q).draws = s.draws := rfl

/-! ### `serveRead` -/

@[simp] theorem serveRead_regs (s : State) (off : Nat) : (s.serveRead off).regs = s.regs := rfl
@[simp] theorem serveRead_status (s : State) (off : Nat) : (s.serveRead off).status = s.status := rfl
@[simp] theorem serveRead_data (s : State) (off : Nat) : (s.serveRead off).data = s.data := rfl
@[simp] theorem serveRead_karg (s : State) (off : Nat) : (s.serveRead off).karg = s.karg := rfl
@[simp] theorem serveRead_decLen (s : State) (off : Nat) : (s.serveRead off).decLen = s.decLen := rfl
@[simp] theorem serveRead_decBuf (s : State) (off : Nat) : (s.serveRead off).decBuf = s.decBuf := rfl
@[simp] theorem serveRead_latch (s : State) (off : Nat) : (s.serveRead off).latch = s.latch := rfl
@[simp] theorem serveRead_seq (s : State) (off : Nat) : (s.serveRead off).seq = s.seq := rfl
@[simp] theorem serveRead_input (s : State) (off : Nat) : (s.serveRead off).input = s.input := rfl
@[simp] theorem serveRead_readLog (s : State) (off : Nat) : (s.serveRead off).readLog = s.readValue off :: s.readLog := rfl
@[simp] theorem serveRead_draws (s : State) (off : Nat) : (s.serveRead off).draws = s.draws + 1 := rfl

/-! ### STATUS -/

@[simp] theorem status_issue_busy (st : Status) : (st.issue).busy = true := rfl
@[simp] theorem status_issue_done (st : Status) : (st.issue).done = false := rfl
@[simp] theorem status_issue_err (st : Status) : (st.issue).err = false := rfl
@[simp] theorem status_issue_ovr (st : Status) : (st.issue).ovr = st.ovr := rfl
@[simp] theorem status_issue_serr (st : Status) : (st.issue).serr = st.serr := rfl
@[simp] theorem status_issue_cmpres (st : Status) : (st.issue).cmpres = st.cmpres := rfl
@[simp] theorem status_issue_errcode (st : Status) : (st.issue).errcode = none := rfl

@[simp] theorem status_finish_busy (st : Status) : (st.finish).busy = false := rfl
@[simp] theorem status_finish_done (st : Status) : (st.finish).done = true := rfl
@[simp] theorem status_finish_err (st : Status) : (st.finish).err = false := rfl
@[simp] theorem status_finish_ovr (st : Status) : (st.finish).ovr = st.ovr := rfl
@[simp] theorem status_finish_serr (st : Status) : (st.finish).serr = st.serr := rfl
@[simp] theorem status_finish_cmpres (st : Status) : (st.finish).cmpres = st.cmpres := rfl
@[simp] theorem status_finish_errcode (st : Status) : (st.finish).errcode = none := rfl

@[simp] theorem status_fault_busy (st : Status) (e : CmdFault) : (Status.fault e st).busy = false := rfl
@[simp] theorem status_fault_done (st : Status) (e : CmdFault) : (Status.fault e st).done = true := rfl
@[simp] theorem status_fault_err (st : Status) (e : CmdFault) : (Status.fault e st).err = true := rfl
@[simp] theorem status_fault_ovr (st : Status) (e : CmdFault) : (Status.fault e st).ovr = st.ovr := rfl
@[simp] theorem status_fault_serr (st : Status) (e : CmdFault) : (Status.fault e st).serr = true := rfl
@[simp] theorem status_fault_cmpres (st : Status) (e : CmdFault) : (Status.fault e st).cmpres = st.cmpres := rfl
@[simp] theorem status_fault_errcode (st : Status) (e : CmdFault) : (Status.fault e st).errcode = some e := rfl

@[simp] theorem status_overrun_busy (st : Status) : (st.overrun).busy = st.busy := rfl
@[simp] theorem status_overrun_done (st : Status) : (st.overrun).done = st.done := rfl
@[simp] theorem status_overrun_err (st : Status) : (st.overrun).err = st.err := rfl
@[simp] theorem status_overrun_ovr (st : Status) : (st.overrun).ovr = true := rfl
@[simp] theorem status_overrun_serr (st : Status) : (st.overrun).serr = st.serr := rfl
@[simp] theorem status_overrun_cmpres (st : Status) : (st.overrun).cmpres = st.cmpres := rfl
@[simp] theorem status_overrun_errcode (st : Status) : (st.overrun).errcode = st.errcode := rfl

@[simp] theorem status_clearSticky_busy (st : Status) : (st.clearSticky).busy = st.busy := rfl
@[simp] theorem status_clearSticky_done (st : Status) : (st.clearSticky).done = st.done := rfl
@[simp] theorem status_clearSticky_err (st : Status) : (st.clearSticky).err = st.err := rfl
@[simp] theorem status_clearSticky_ovr (st : Status) : (st.clearSticky).ovr = false := rfl
@[simp] theorem status_clearSticky_serr (st : Status) : (st.clearSticky).serr = false := rfl
@[simp] theorem status_clearSticky_cmpres (st : Status) : (st.clearSticky).cmpres = st.cmpres := rfl
@[simp] theorem status_clearSticky_errcode (st : Status) : (st.clearSticky).errcode = st.errcode := rfl

@[simp] theorem status_setCmp_busy (st : Status) (r : CmpRes) : (Status.setCmp r st).busy = st.busy := rfl
@[simp] theorem status_setCmp_done (st : Status) (r : CmpRes) : (Status.setCmp r st).done = st.done := rfl
@[simp] theorem status_setCmp_err (st : Status) (r : CmpRes) : (Status.setCmp r st).err = st.err := rfl
@[simp] theorem status_setCmp_ovr (st : Status) (r : CmpRes) : (Status.setCmp r st).ovr = st.ovr := rfl
@[simp] theorem status_setCmp_serr (st : Status) (r : CmpRes) : (Status.setCmp r st).serr = st.serr := rfl
@[simp] theorem status_setCmp_cmpres (st : Status) (r : CmpRes) : (Status.setCmp r st).cmpres = r := rfl
@[simp] theorem status_setCmp_errcode (st : Status) (r : CmpRes) : (Status.setCmp r st).errcode = st.errcode := rfl

/-! ### Reading a register after an update -/

theorem br_of_regs (s t : State) (h : t.regs = s.regs) (r : RegId) : t.br r = s.br r := by
  rw [State.br, State.br, h]

@[simp] theorem br_setBr (s : State) (r q : RegId) (x : BigInt) :
    (s.setBr r x).br q = if q = r then some x else s.br q := by
  simp only [State.br, State.setBr]
  by_cases h : q = r
  · subst h; simp
  · have hv : r.val ≠ q.val := fun hv => h (Fin.ext hv.symm)
    rw [if_neg h]
    exact Vector.getElem_set_ne _ _ hv

@[simp] theorem br_invalidate (s : State) (r q : RegId) :
    (s.invalidate r).br q = if q = r then none else s.br q := by
  simp only [State.br, State.invalidate]
  by_cases h : q = r
  · subst h; simp
  · have hv : r.val ≠ q.val := fun hv => h (Fin.ext hv.symm)
    rw [if_neg h]
    exact Vector.getElem_set_ne _ _ hv

@[simp] theorem br_setData (s : State) (v : Word) (r : RegId) : (s.setData v).br r = s.br r := rfl
@[simp] theorem br_writeDec (s : State) (str : List Byte) (r : RegId) : (s.writeDec str).br r = s.br r := rfl
@[simp] theorem br_finish (s : State) (r : RegId) : s.finish.br r = s.br r := rfl
@[simp] theorem br_takeFault (s : State) (e : CmdFault) (r : RegId) : (State.takeFault e s).br r = s.br r := rfl
@[simp] theorem br_issue (s : State) (c : Word) (r : RegId) : (State.issue c s).br r = s.br r := rfl
@[simp] theorem br_overrun (s : State) (r : RegId) : s.overrun.br r = s.br r := rfl
@[simp] theorem br_serveRead (s : State) (off : Nat) (r : RegId) : (s.serveRead off).br r = s.br r := rfl
@[simp] theorem br_render (s : State) (rd : RegId) (q : Sequencer) (r : RegId) :
    (s.render rd q).br r = if r = rd then some q.fk else s.br r := br_setBr s rd r q.fk
@[simp] theorem br_reset (r : RegId) : State.reset.br r = none := by simp [State.br, State.reset]

end Sys2Proof.Machine
end

