-- ==== Sys2Proof/Laws/PerInstr.lean ====
section
/-! SUPPORT. Statements made once per command: its encoding carries its row's opcode and none of the
must-be-zero bits of its row's format (R72, R75). -/

namespace Sys2Proof.Laws.RowPattern

/-- The opcode of a command's row (R75). -/
def opcode : Instr → BitVec 8
  | .nop => 0x01
  | .alloc _ => 0x02
  | .free _ => 0x03
  | .copy _ _ => 0x04
  | .swap _ _ => 0x05
  | .pushw _ => 0x06
  | .rdw _ _ => 0x07
  | .rdhdr _ => 0x08
  | .bitlen _ => 0x09
  | .cmp _ _ => 0x0A
  | .add _ _ _ => 0x10
  | .sub _ _ _ => 0x11
  | .addm _ _ _ => 0x12
  | .subm _ _ _ => 0x13
  | .neg _ _ => 0x14
  | .mul _ _ _ => 0x18
  | .shl _ _ _ => 0x1C
  | .todec _ => 0x20
  | .fib _ => 0x30

/-- The mask of a command's row (R75). -/
def mask : Instr → Word
  | .nop => 0xFFFFFFFF
  | .alloc _ => 0xFF0FFFFF
  | .free _ => 0xFF0FFFFF
  | .copy _ _ => 0xFF00FFFF
  | .swap _ _ => 0xFF00FFFF
  | .pushw _ => 0xFF0FFFFF
  | .rdw _ _ => 0xFFF00000
  | .rdhdr _ => 0xFFF0FFFF
  | .bitlen _ => 0xFFF0FFFF
  | .cmp _ _ => 0xFFF00FFF
  | .add _ _ _ => 0xFF000FFF
  | .sub _ _ _ => 0xFF000FFF
  | .addm _ _ _ => 0xFF000FFF
  | .subm _ _ _ => 0xFF000FFF
  | .neg _ _ => 0xFF00FFFF
  | .mul _ _ _ => 0xFF000FFF
  | .shl _ _ _ => 0xFF00FFE0
  | .todec _ => 0xFFF0FFFF
  | .fib _ => 0xFF0FFFFF

/-- The encoded word has the row's opcode in bits 31:24 and equals `match` under `mask` (R75). -/
def Statement (i : Instr) : Prop :=
  opcodeOf (encode i) = opcode i ∧ encode i &&& mask i = opcode i ++ 0#24

/-! ### Per format -/

theorem patternD (op : BitVec 8) (rd : RegId) :
    opcodeOf (encodeD op rd) = op ∧ encodeD op rd &&& 0xFF0FFFFF = op ++ 0#24 := by
  constructor
  · apply BitVec.eq_of_getLsbD_eq
    intro i hi
    simp only [opcodeOf, encodeD, BitVec.getLsbD_extractLsb', BitVec.getLsbD_append]
    interval_cases i <;> simp
  · apply BitVec.eq_of_getLsbD_eq
    intro i hi
    simp only [encodeD, BitVec.getLsbD_and, BitVec.getLsbD_append]
    interval_cases i <;> simp

theorem patternS (op : BitVec 8) (rs1 : RegId) :
    opcodeOf (encodeS op rs1) = op ∧ encodeS op rs1 &&& 0xFFF0FFFF = op ++ 0#24 := by
  constructor
  · apply BitVec.eq_of_getLsbD_eq
    intro i hi
    simp only [opcodeOf, encodeS, BitVec.getLsbD_extractLsb', BitVec.getLsbD_append]
    interval_cases i <;> simp
  · apply BitVec.eq_of_getLsbD_eq
    intro i hi
    simp only [encodeS, BitVec.getLsbD_and, BitVec.getLsbD_append]
    interval_cases i <;> simp

theorem patternDS (op : BitVec 8) (rd rs1 : RegId) :
    opcodeOf (encodeDS op rd rs1) = op ∧ encodeDS op rd rs1 &&& 0xFF00FFFF = op ++ 0#24 := by
  constructor
  · apply BitVec.eq_of_getLsbD_eq
    intro i hi
    simp only [opcodeOf, encodeDS, BitVec.getLsbD_extractLsb', BitVec.getLsbD_append]
    interval_cases i <;> simp
  · apply BitVec.eq_of_getLsbD_eq
    intro i hi
    simp only [encodeDS, BitVec.getLsbD_and, BitVec.getLsbD_append]
    interval_cases i <;> simp

theorem patternSS (op : BitVec 8) (rs1 rs2 : RegId) :
    opcodeOf (encodeSS op rs1 rs2) = op ∧ encodeSS op rs1 rs2 &&& 0xFFF00FFF = op ++ 0#24 := by
  constructor
  · apply BitVec.eq_of_getLsbD_eq
    intro i hi
    simp only [opcodeOf, encodeSS, BitVec.getLsbD_extractLsb', BitVec.getLsbD_append]
    interval_cases i <;> simp
  · apply BitVec.eq_of_getLsbD_eq
    intro i hi
    simp only [encodeSS, BitVec.getLsbD_and, BitVec.getLsbD_append]
    interval_cases i <;> simp

theorem patternR (op : BitVec 8) (rd rs1 rs2 : RegId) :
    opcodeOf (encodeR op rd rs1 rs2) = op ∧ encodeR op rd rs1 rs2 &&& 0xFF000FFF = op ++ 0#24 := by
  constructor
  · apply BitVec.eq_of_getLsbD_eq
    intro i hi
    simp only [opcodeOf, encodeR, BitVec.getLsbD_extractLsb', BitVec.getLsbD_append]
    interval_cases i <;> simp
  · apply BitVec.eq_of_getLsbD_eq
    intro i hi
    simp only [encodeR, BitVec.getLsbD_and, BitVec.getLsbD_append]
    interval_cases i <;> simp

theorem patternSI (op : BitVec 8) (rs1 : RegId) (imm16 : Nat) :
    opcodeOf (encodeSI op rs1 imm16) = op ∧ encodeSI op rs1 imm16 &&& 0xFFF00000 = op ++ 0#24 := by
  constructor
  · apply BitVec.eq_of_getLsbD_eq
    intro i hi
    simp only [opcodeOf, encodeSI, BitVec.getLsbD_extractLsb', BitVec.getLsbD_append]
    interval_cases i <;> simp
  · apply BitVec.eq_of_getLsbD_eq
    intro i hi
    simp only [encodeSI, BitVec.getLsbD_and, BitVec.getLsbD_append]
    interval_cases i <;> simp

theorem patternSH (op : BitVec 8) (rd rs1 : RegId) (shamt : Nat) :
    opcodeOf (encodeSH op rd rs1 shamt) = op ∧ encodeSH op rd rs1 shamt &&& 0xFF00FFE0 = op ++ 0#24 := by
  constructor
  · apply BitVec.eq_of_getLsbD_eq
    intro i hi
    simp only [opcodeOf, encodeSH, BitVec.getLsbD_extractLsb', BitVec.getLsbD_append]
    interval_cases i <;> simp
  · apply BitVec.eq_of_getLsbD_eq
    intro i hi
    simp only [encodeSH, BitVec.getLsbD_and, BitVec.getLsbD_append]
    interval_cases i <;> simp

/-! ### Per command -/

theorem nop : Statement (.nop) := ⟨by decide, by decide⟩
theorem alloc (rd : RegId) : Statement (.alloc rd) := patternD _ rd
theorem free (rd : RegId) : Statement (.free rd) := patternD _ rd
theorem copy (rd rs1 : RegId) : Statement (.copy rd rs1) := patternDS _ rd rs1
theorem swap (rd rs1 : RegId) : Statement (.swap rd rs1) := patternDS _ rd rs1
theorem pushw (rd : RegId) : Statement (.pushw rd) := patternD _ rd
theorem rdw (rs1 : RegId) (imm16 : Nat) : Statement (.rdw rs1 imm16) := patternSI _ rs1 imm16
theorem rdhdr (rs1 : RegId) : Statement (.rdhdr rs1) := patternS _ rs1
theorem bitlen (rs1 : RegId) : Statement (.bitlen rs1) := patternS _ rs1
theorem cmp (rs1 rs2 : RegId) : Statement (.cmp rs1 rs2) := patternSS _ rs1 rs2
theorem add (rd rs1 rs2 : RegId) : Statement (.add rd rs1 rs2) := patternR _ rd rs1 rs2
theorem sub (rd rs1 rs2 : RegId) : Statement (.sub rd rs1 rs2) := patternR _ rd rs1 rs2
theorem addm (rd rs1 rs2 : RegId) : Statement (.addm rd rs1 rs2) := patternR _ rd rs1 rs2
theorem subm (rd rs1 rs2 : RegId) : Statement (.subm rd rs1 rs2) := patternR _ rd rs1 rs2
theorem neg (rd rs1 : RegId) : Statement (.neg rd rs1) := patternDS _ rd rs1
theorem mul (rd rs1 rs2 : RegId) : Statement (.mul rd rs1 rs2) := patternR _ rd rs1 rs2
theorem shl (rd rs1 : RegId) (shamt : Nat) : Statement (.shl rd rs1 shamt) := patternSH _ rd rs1 shamt
theorem todec (rs1 : RegId) : Statement (.todec rs1) := patternS _ rs1
theorem fib (rd : RegId) : Statement (.fib rd) := patternD _ rd

end Sys2Proof.Laws.RowPattern
end

