-- ==== Sys2Proof/Laws/Decode.lean ====
section
/-! SUPPORT. What the decoder answers: once per case of R76. -/

namespace Sys2Proof

/-- A word with an assigned opcode and no must-be-zero bit set is its row's command (R76). -/
theorem decode_of_row {c : Word} {op : BitVec 8} {r : OpRow} (hop : opcodeOf c = op)
    (hrow : opcodeRow op = some r) (hmask : c &&& r.format.mask = r.matchWord) :
    decode c = .ok (r.build c) := by
  unfold decode
  rw [hop, hrow]
  exact if_pos hmask

/-- All that `decode` can answer (R76). -/
theorem decode_cases (c : Word) :
    (opcodeRow (opcodeOf c) = none ∧ decode c = .error .reservedOpcode) ∨
    ∃ r, opcodeRow (opcodeOf c) = some r ∧
      ((c &&& r.format.mask = r.matchWord ∧ decode c = .ok (r.build c)) ∨
       (c &&& r.format.mask ≠ r.matchWord ∧ decode c = .error .mustBeZero)) := by
  unfold decode
  cases h : opcodeRow (opcodeOf c) with
  | none => exact .inl ⟨rfl, rfl⟩
  | some r =>
    refine .inr ⟨r, rfl, ?_⟩
    by_cases hm : c &&& r.format.mask = r.matchWord
    · exact .inl ⟨hm, if_pos hm⟩
    · exact .inr ⟨hm, if_neg hm⟩

/-- No opcode has two rows (R75). -/
theorem opTable_opcodes_distinct : (opTable.map OpRow.opcode).Nodup := by decide

end Sys2Proof
end

