-- ==== Sys2Proof/Laws/Ops.lean ====
section
/-! SUPPORT. What the shared operations of the commands can do: the validity check and completion. -/

namespace Sys2Proof.Machine

/-! ### `need` (R204) -/

@[simp] theorem need_of_valid {s : State} {r : RegId} {x : BigInt} (h : s.br r = some x) :
    s.need r = .ok x := by simp [State.need, h]

@[simp] theorem need_of_invalid {s : State} {r : RegId} (h : s.br r = none) :
    s.need r = .error .invalidOperand := by simp [State.need, h]

theorem need_eq_ok {s : State} {r : RegId} {x : BigInt} : s.need r = .ok x ↔ s.br r = some x := by
  unfold State.need
  cases s.br r <;> simp

theorem need_eq_error {s : State} {r : RegId} {e : CmdFault} :
    s.need r = .error e ↔ s.br r = none ∧ e = .invalidOperand := by
  unfold State.need
  cases s.br r <;> simp [eq_comm]

/-! ### Effects in sequence -/

@[simp] theorem bind_ok {α β : Type} (x : α) (f : α → Except CmdFault β) :
    ((Except.ok x : Except CmdFault α) >>= f) = f x := rfl

@[simp] theorem bind_error {α β : Type} (e : CmdFault) (f : α → Except CmdFault β) :
    ((Except.error e : Except CmdFault α) >>= f) = .error e := rfl

@[simp] theorem pure_eq_ok {α : Type} (x : α) : (pure x : Except CmdFault α) = .ok x := rfl

/-- A sequence succeeds exactly when its first part does and the rest does on its value. -/
theorem bind_eq_ok {α β : Type} {x : Except CmdFault α} {f : α → Except CmdFault β} {b : β} :
    (x >>= f) = .ok b ↔ ∃ a, x = .ok a ∧ f a = .ok b := by
  cases x <;> simp

/-- A sequence faults when its first part does, or the rest does on its value. -/
theorem bind_eq_error {α β : Type} {x : Except CmdFault α} {f : α → Except CmdFault β} {e : CmdFault} :
    (x >>= f) = .error e ↔ x = .error e ∨ ∃ a, x = .ok a ∧ f a = .error e := by
  cases x <;> simp

/-! ### Completion (R201, R202, R226) -/

@[simp] theorem complete_ok (s t : State) : s.complete (.ok t) = .next t.finish := rfl

@[simp] theorem complete_error (s : State) (e : CmdFault) :
    s.complete (.error e) = .next (s.takeFault e) := rfl

/-- All that completion can do: the effects with DONE, or the fault on the state before. -/
theorem complete_eq_next {s t : State} {r : Except CmdFault State} :
    s.complete r = .next t ↔
      (∃ u, r = .ok u ∧ t = u.finish) ∨ (∃ e, r = .error e ∧ t = s.takeFault e) := by
  cases r <;> simp [eq_comm]

/-- Completion always answers a next state. -/
theorem complete_is_next (s : State) (r : Except CmdFault State) : ∃ t, s.complete r = .next t := by
  cases r
  · exact ⟨_, rfl⟩
  · exact ⟨_, rfl⟩

/-- The two renderings of a completed STATUS agree. -/
theorem completed_eq_finish (st : Status) : st.completed = st.finish := rfl

/-- The two renderings of a faulted STATUS agree. -/
theorem faulted_eq_fault (st : Status) (e : CmdFault) : st.faulted e = st.fault e := rfl

end Sys2Proof.Machine
end

