-- ==== Sys2Proof/Laws/Exec.lean ====
section
/-! SUPPORT. What executing any command can do: it completes, with its effects or with a fault. -/

namespace Sys2Proof.Machine

/-- Every command ends by `State.complete`, applied to the state before it (R226). -/
theorem exec_is_complete (i : Instr) (s : State) : ∃ r, exec i s = s.complete r := by
  cases i <;> simp only [exec] <;>
  first
    | exact ⟨_, by unfold execNop; rfl⟩
    | exact ⟨_, by unfold execAlloc; rfl⟩
    | exact ⟨_, by unfold execRdhdr; rfl⟩
    | exact ⟨_, rfl⟩

/-- Every command answers a next state (R202, R226). -/
theorem exec_is_next (i : Instr) (s : State) : ∃ t, exec i s = .next t := by
  obtain ⟨r, hr⟩ := exec_is_complete i s
  rw [hr]
  exact complete_is_next s r

/-- A command whose next state has ERR = 1 took a fault, and changed nothing else (R201, R202). -/
theorem exec_of_err {i : Instr} {s t : State} (h : exec i s = .next t) (he : t.status.err = true) :
    ∃ e, t = s.takeFault e := by
  obtain ⟨r, hr⟩ := exec_is_complete i s
  rw [hr] at h
  cases r with
  | error e => exact ⟨e, by simpa using h.symm⟩
  | ok u =>
    rw [complete_ok] at h
    injection h with h
    subst h
    simp [State.finish, Status.finish] at he

end Sys2Proof.Machine
end

