-- ==== Sys2Proof/Laws/Multiply.lean ====
section
/-! SUPPORT. What the multiplier returns (R151, R154), for normalized operands. -/

namespace Sys2Proof.Machine

theorem addCarry_length (ws : List Word) (c : Nat) : (addCarry ws c).length = ws.length := by
  induction ws generalizing c with
  | nil => rfl
  | cons w ws ih => unfold addCarry; split <;> simp [ih]

theorem addAt_length (ws : List Word) (k p : Nat) : (addAt ws k p).length = ws.length := by
  induction ws generalizing k with
  | nil => cases k <;> simp [addAt, addCarry]
  | cons w ws ih => cases k <;> simp [addAt, addCarry_length, ih]

/-- The carry loop adds `c`, when the buffer has room for the sum. -/
theorem magOf_addCarry (ws : List Word) (c : Nat) (h : magOf ws + c < 2 ^ (32 * ws.length)) :
    magOf (addCarry ws c) = magOf ws + c := by
  induction ws generalizing c with
  | nil => simp at h; simp [addCarry, h]
  | cons w ws ih =>
    unfold addCarry
    by_cases hc : c = 0
    · rw [if_pos hc, hc]; rfl
    · rw [if_neg hc]
      have hp : 2 ^ (32 * (w :: ws).length) = 2 ^ 32 * 2 ^ (32 * ws.length) := two_pow_words_succ _
      have hroom : magOf ws + (c / 2 ^ 32 + (w.toNat + c % 2 ^ 32) / 2 ^ 32) < 2 ^ (32 * ws.length) := by
        rw [hp, magOf_cons] at h
        by_contra hcon
        have := Nat.mul_le_mul_left (2 ^ 32) (Nat.not_lt.1 hcon)
        omega
      rw [magOf_cons, ih _ hroom, magOf_cons, BitVec.toNat_ofNat]
      omega

/-- Adding at word `k` adds `p * 2^(32*k)`, when the buffer has room for the sum. -/
theorem magOf_addAt (ws : List Word) (k p : Nat)
    (h : magOf ws + 2 ^ (32 * k) * p < 2 ^ (32 * ws.length)) :
    magOf (addAt ws k p) = magOf ws + 2 ^ (32 * k) * p := by
  induction ws generalizing k with
  | nil =>
    have hp0 : p = 0 := by
      by_contra hne
      have : 0 < 2 ^ (32 * k) * p := Nat.mul_pos (by positivity) (Nat.pos_of_ne_zero hne)
      simp at h; omega
    subst hp0
    cases k <;> simp [addAt, addCarry]
  | cons w ws ih =>
    cases k with
    | zero =>
      rw [Nat.mul_zero, pow_zero, Nat.one_mul] at h ⊢
      exact magOf_addCarry (w :: ws) p h
    | succ k =>
      have hk : 2 ^ (32 * (k + 1)) = 2 ^ 32 * 2 ^ (32 * k) := two_pow_words_succ k
      have hp : 2 ^ (32 * (w :: ws).length) = 2 ^ 32 * 2 ^ (32 * ws.length) := two_pow_words_succ _
      have hroom : magOf ws + 2 ^ (32 * k) * p < 2 ^ (32 * ws.length) := by
        rw [hp, hk, magOf_cons, Nat.mul_assoc, Nat.add_assoc, ← Nat.mul_add] at h
        exact Nat.lt_of_mul_lt_mul_left (lt_of_le_of_lt (Nat.le_add_left _ _) h)
      rw [addAt, magOf_cons, ih k hroom, magOf_cons, hk, Nat.mul_add, Nat.mul_assoc, Nat.add_assoc]

theorem mulRow_length (a : Word) (bs : List Word) (k : Nat) (t : List Word) :
    (mulRow a bs k t).length = t.length := by
  induction bs generalizing k t with
  | nil => rfl
  | cons b bs ih => rw [mulRow, ih, addAt_length]

/-- One row adds `a.w[i] * mag(bs) * 2^(32*k)`, when the buffer has room for the sum. -/
theorem magOf_mulRow (a : Word) (bs : List Word) (k : Nat) (t : List Word)
    (h : magOf t + 2 ^ (32 * k) * (a.toNat * magOf bs) < 2 ^ (32 * t.length)) :
    magOf (mulRow a bs k t) = magOf t + 2 ^ (32 * k) * (a.toNat * magOf bs) := by
  induction bs generalizing k t with
  | nil => simp [mulRow]
  | cons b bs ih =>
    have hk : 2 ^ (32 * (k + 1)) = 2 ^ 32 * 2 ^ (32 * k) := two_pow_words_succ k
    have hsplit : 2 ^ (32 * k) * (a.toNat * magOf (b :: bs)) =
        2 ^ (32 * k) * (a.toNat * b.toNat) + 2 ^ (32 * (k + 1)) * (a.toNat * magOf bs) := by
      rw [hk, magOf_cons]; ring
    rw [hsplit] at h ⊢
    have h1 := magOf_addAt t k (a.toNat * b.toNat) (by omega)
    rw [mulRow, ih (k + 1) _ (by rw [h1, addAt_length]; omega), h1]
    omega

/-- The double loop adds `mag(as) * mag(bs) * 2^(32*i)`, when the buffer has room for the sum. -/
theorem magOf_mulLoop (bs as : List Word) (i : Nat) (t : List Word)
    (h : magOf t + 2 ^ (32 * i) * (magOf as * magOf bs) < 2 ^ (32 * t.length)) :
    magOf (mulLoop bs as i t) = magOf t + 2 ^ (32 * i) * (magOf as * magOf bs) := by
  induction as generalizing i t with
  | nil => simp [mulLoop]
  | cons a as ih =>
    have hi : 2 ^ (32 * (i + 1)) = 2 ^ 32 * 2 ^ (32 * i) := two_pow_words_succ i
    have hsplit : 2 ^ (32 * i) * (magOf (a :: as) * magOf bs) =
        2 ^ (32 * i) * (a.toNat * magOf bs) + 2 ^ (32 * (i + 1)) * (magOf as * magOf bs) := by
      rw [hi, magOf_cons]; ring
    rw [hsplit] at h ⊢
    have h1 := magOf_mulRow a bs i t (by omega)
    rw [mulLoop, ih (i + 1) _ (by rw [h1, mulRow_length]; omega), h1]
    omega

/-- A product is below `2^(bl(a) + bl(b))` (R151). -/
theorem mul_lt_two_pow_bl (a b : Nat) : a * b < 2 ^ (bl a + bl b) := by
  rw [pow_add]
  exact Nat.mul_lt_mul'' (lt_two_pow_bl a) (lt_two_pow_bl b)

/-- `mulmag` returns the exact product, or CAPACITY when `bl(a) + bl(b) > 32 * MAXW`. -/
theorem mulmag_eq {a b : BigInt} (ha : a.Norm) (hb : b.Norm) :
    mulmag a b = if 32 * Config.MAXW < bl a.mag + bl b.mag then .error .capacity
      else .ok (a.mag * b.mag) := by
  have hL : mulLength a b = max 1 ((bl a.mag + bl b.mag + 31) / 32) := by
    simp only [mulLength, wordsFor, Norm.bl_eq ha, Norm.bl_eq hb]
  unfold mulmag
  rw [hL]
  by_cases h : 32 * Config.MAXW < bl a.mag + bl b.mag
  · rw [if_pos h]
    exact sized_of_gt _ (by simp only [Config.MAXW] at *; omega)
  · rw [if_neg h, sized_of_le _ (by simp only [Config.MAXW] at *; omega), magOf_trimAll, magOf_mulLoop]
    · rw [magOf_replicate_zero]
      simp only [Nat.mul_zero, pow_zero, Nat.one_mul, Nat.zero_add]
      rfl
    · rw [magOf_replicate_zero, List.length_replicate]
      simp only [Nat.mul_zero, pow_zero, Nat.one_mul, Nat.zero_add]
      exact lt_of_lt_of_le (mul_lt_two_pow_bl a.mag b.mag)
        (Nat.pow_le_pow_right (by norm_num) (by omega))

theorem mkBig_xor_eq_ofInt (a b : BigInt) (s : Bool) (hs : s = (a.sign != b.sign)) :
    mkBig s (a.mag * b.mag) = BigInt.ofInt (a.val * b.val) := by
  have hval : ∀ x : BigInt, x.val = if x.sign then -(x.mag : Int) else x.mag := fun _ => rfl
  have hnn : ¬ ((a.mag : Int) * b.mag < 0) := not_lt.2 (by positivity)
  rw [hs, hval, hval]
  unfold BigInt.ofInt mkBig
  by_cases h0 : a.mag * b.mag = 0
  · have : a.mag = 0 ∨ b.mag = 0 := Nat.mul_eq_zero.1 h0
    rcases this with h | h <;> cases a.sign <;> cases b.sign <;> simp [h]
  · have hpos : 0 < a.mag * b.mag := Nat.pos_of_ne_zero h0
    have hposi : (0 : Int) < (a.mag : Int) * b.mag := by exact_mod_cast hpos
    cases a.sign <;> cases b.sign <;> simp [Int.natAbs_mul, h0, hnn, hposi]

/-- `mul` returns the register of the exact product (R154). -/
theorem mul_eq {a b : BigInt} (ha : a.Norm) (hb : b.Norm) :
    mul a b = if 32 * Config.MAXW < bl a.mag + bl b.mag then .error .capacity
      else .ok (BigInt.ofInt (a.val * b.val)) := by
  unfold mul
  rw [mulmag_eq ha hb]
  split
  · rfl
  · rw [← mkBig_xor_eq_ofInt a b _ rfl]; rfl

/-- A product `mul` returns is normalized. -/
theorem mul_ok {a b x : BigInt} (ha : a.Norm) (hb : b.Norm) (h : mul a b = .ok x) :
    x = BigInt.ofInt (a.val * b.val) ∧ x.Norm := by
  have heq := mul_eq ha hb
  rw [h] at heq
  split at heq
  · cases heq
  · next hc =>
    have hx : x = BigInt.ofInt (a.val * b.val) := by injection heq
    refine ⟨hx, ?_⟩
    rw [hx, ← mkBig_xor_eq_ofInt a b _ rfl]
    apply mkBig_norm
    rw [nw_le_iff (by norm_num)]
    exact lt_of_lt_of_le (mul_lt_two_pow_bl a.mag b.mag)
      (Nat.pow_le_pow_right (by norm_num) (Nat.not_lt.1 hc))

end Sys2Proof.Machine
end

