-- ==== Sys2Proof/Laws/Shift.lean ====
section
/-! SUPPORT. What the left shifter returns (R161), for a normalized operand. -/

namespace Sys2Proof.Machine

/-- One shifted word: `(w << s) mod 2^32` and the bits coming in from the word below do not meet. -/
theorem toNat_shlWord (w below : Word) (s : Nat) (hs : s ≤ 31) (hs1 : 1 ≤ s) :
    (w <<< s ||| below >>> (32 - s)).toNat = w.toNat * 2 ^ s % 2 ^ 32 + below.toNat / 2 ^ (32 - s) := by
  have hb := below.isLt
  have h2 : below.toNat / 2 ^ (32 - s) < 2 ^ s := by
    apply Nat.div_lt_of_lt_mul
    rw [← pow_add, Nat.sub_add_cancel (by omega)]
    exact hb
  have h3 : w.toNat * 2 ^ s % 2 ^ 32 = 2 ^ s * (w.toNat % 2 ^ (32 - s)) := by
    have : (2 : Nat) ^ 32 = 2 ^ s * 2 ^ (32 - s) := by rw [← pow_add]; congr 1; omega
    rw [this, Nat.mul_comm w.toNat, Nat.mul_mod_mul_left]
  rw [BitVec.toNat_or, BitVec.toNat_shiftLeft, BitVec.toNat_ushiftRight, Nat.shiftLeft_eq,
    Nat.shiftRight_eq_div_pow, h3, Nat.two_pow_add_eq_or_of_lt h2]

/-- The word loop computes `mag * 2^s` plus the bits coming in, modulo its length. -/
theorem magOf_shlLoop (s : Nat) (hs : s ≤ 31) (hs1 : 1 ≤ s) (n : Nat) (ws : List Word) (below : Word) :
    magOf (shlLoop s n ws below) =
      (magOf ws * 2 ^ s + below.toNat / 2 ^ (32 - s)) % 2 ^ (32 * n) := by
  induction n generalizing ws below with
  | zero => simp [shlLoop, Nat.mod_one]
  | succ n ih =>
    have hw := (ws.headD 0).isLt
    have hb := below.isLt
    have hpow : (2 : Nat) ^ 32 = 2 ^ s * 2 ^ (32 - s) := by rw [← pow_add]; congr 1; omega
    have h2 : below.toNat / 2 ^ (32 - s) < 2 ^ s := by
      apply Nat.div_lt_of_lt_mul
      rw [Nat.mul_comm, ← hpow]; exact hb
    set w := (ws.headD 0).toNat with hwdef
    set r := below.toNat / 2 ^ (32 - s) with hr
    have hlow : (w * 2 ^ s % 2 ^ 32 + r) < 2 ^ 32 := by
      rw [hpow, Nat.mul_comm w, Nat.mul_mod_mul_left]
      have h5 := Nat.mod_lt w (show 0 < 2 ^ (32 - s) by positivity)
      calc 2 ^ s * (w % 2 ^ (32 - s)) + r < 2 ^ s * (w % 2 ^ (32 - s)) + 2 ^ s := by omega
        _ = 2 ^ s * (w % 2 ^ (32 - s) + 1) := by ring
        _ ≤ 2 ^ s * 2 ^ (32 - s) := Nat.mul_le_mul_left _ h5
    have hhigh : w * 2 ^ s / 2 ^ 32 = w / 2 ^ (32 - s) := by
      rw [hpow, Nat.mul_comm w, Nat.mul_div_mul_left _ _ (by positivity)]
    have htot : magOf ws * 2 ^ s + r =
        (w * 2 ^ s % 2 ^ 32 + r) + 2 ^ 32 * (magOf ws.tail * 2 ^ s + w / 2 ^ (32 - s)) := by
      rw [← hhigh, magOf_tail ws, ← hwdef]
      have := Nat.div_add_mod (w * 2 ^ s) (2 ^ 32)
      calc (w + 2 ^ 32 * magOf ws.tail) * 2 ^ s + r
          = w * 2 ^ s + 2 ^ 32 * (magOf ws.tail * 2 ^ s) + r := by ring
        _ = _ := by rw [Nat.mul_add]; omega
    rw [shlLoop, magOf_cons, ih, toNat_shlWord _ _ _ hs hs1, two_pow_words_succ, Nat.mod_mul,
      ← hwdef, ← hr, htot, Nat.add_mul_mod_self_left, Nat.mod_eq_of_lt hlow,
      Nat.add_mul_div_left _ _ (by norm_num), Nat.div_eq_of_lt hlow, Nat.zero_add]

/-- `shl` returns the register of `val(x) * 2^s`, or CAPACITY when the shifted value needs MAXW + 1
words. -/
theorem shl_eq {x : BigInt} (hx : x.Norm) {s : Nat} (hs1 : 1 ≤ s) (hs : s ≤ 31) :
    shl x s = if x.len = Config.MAXW ∧ 32 * Config.MAXW - bl x.mag < s then .error .capacity
      else .ok (mkBig x.sign (x.mag * 2 ^ s)) := by
  have hlt : x.mag < 2 ^ (32 * x.len) := magOf_lt x.words
  have hbl := (lt_two_pow_iff_bl_le _ _).1 hlt
  have hle := hx.2.1
  unfold shl shlLength
  rw [Norm.bl_eq hx]
  by_cases hc : x.len = Config.MAXW ∧ 32 * Config.MAXW - bl x.mag < s
  · rw [if_pos hc]
    exact sized_of_gt _ (by rw [hc.1, if_pos hc.2]; exact Nat.lt_succ_self _)
  · rw [if_neg hc, sized_of_le]
    · congr 2
      rw [magOf_shlLoop _ hs hs1]
      show (x.mag * 2 ^ s + (0 : Word).toNat / 2 ^ (32 - s)) % _ = _
      rw [show (0 : Word).toNat = 0 from rfl, Nat.zero_div, Nat.add_zero]
      apply Nat.mod_eq_of_lt
      rw [lt_two_pow_iff_bl_le]
      refine le_trans ((lt_two_pow_iff_bl_le _ (bl x.mag + s)).1 ?_) ?_
      · rw [pow_add]; exact Nat.mul_lt_mul_of_pos_right (lt_two_pow_bl x.mag) (by positivity)
      · split <;> omega
    · split
      · next hgt =>
        rcases Nat.lt_or_ge x.len Config.MAXW with h | h
        · exact h
        · have heq : x.len = Config.MAXW := le_antisymm hle h
          exact absurd ⟨heq, heq ▸ hgt⟩ hc
      · exact hle

/-- A value `shl` returns is normalized. -/
theorem shl_ok {x y : BigInt} (hx : x.Norm) {s : Nat} (hs1 : 1 ≤ s) (hs : s ≤ 31)
    (h : shl x s = .ok y) : y = mkBig x.sign (x.mag * 2 ^ s) ∧ y.Norm := by
  have heq := shl_eq hx hs1 hs
  rw [h] at heq
  split at heq
  · cases heq
  · next hc =>
    have hy : y = mkBig x.sign (x.mag * 2 ^ s) := by injection heq
    refine ⟨hy, hy ▸ mkBig_norm _ ?_⟩
    have hlt : x.mag < 2 ^ (32 * x.len) := magOf_lt x.words
    have hbl := (lt_two_pow_iff_bl_le _ _).1 hlt
    have hle := hx.2.1
    rw [nw_le_iff (by norm_num), lt_two_pow_iff_bl_le]
    refine le_trans ((lt_two_pow_iff_bl_le _ (bl x.mag + s)).1 ?_) ?_
    · rw [pow_add]; exact Nat.mul_lt_mul_of_pos_right (lt_two_pow_bl x.mag) (by positivity)
    · rcases Nat.lt_or_ge x.len Config.MAXW with h' | h'
      · have : 32 * (x.len + 1) ≤ 32 * Config.MAXW := Nat.mul_le_mul_left _ h'
        omega
      · have heq : x.len = Config.MAXW := le_antisymm hle h'
        rw [heq] at hbl
        have : ¬ 32 * Config.MAXW - bl x.mag < s := fun hgt => hc ⟨heq, hgt⟩
        omega

end Sys2Proof.Machine
end

