-- ==== Sys2Proof/Laws/Fib.lean ====
section
/-! SUPPORT. What one iteration of the FIB sequencer can do (R183 to R185): which values it computes,
and that it keeps every working register normalized (R39). -/

namespace Sys2Proof.Machine

/-- The eight working registers are normalized (R39). -/
abbrev Sequencer.Normal (q : Sequencer) : Prop :=
  q.fk.Norm ∧ q.fk1.Norm ∧ q.ft.Norm ∧ q.fa.Norm ∧ q.fd0.Norm ∧ q.fs1.Norm ∧ q.fs2.Norm ∧ q.fd1.Norm

theorem mkBig_false_val (m : Nat) : (mkBig false m).val = m := by simp [BigInt.val]

theorem ofInt_natCast (m : Nat) : BigInt.ofInt (m : Int) = mkBig false m := by
  rw [mkBig_eq_ofInt]; simp

/-! ### The body (R183) -/

/-- All a body that succeeds did: the six functions, in order, and the six registers they write. -/
theorem body_eq_ok {q q' : Sequencer} :
    q.body = .ok q' ↔ ∃ ft, shl q.fk1 1 = .ok ft ∧ ∃ fa, ssub ft q.fk = .ok fa ∧
      ∃ fd0, mul q.fk fa = .ok fd0 ∧ ∃ fs1, mul q.fk q.fk = .ok fs1 ∧
      ∃ fs2, mul q.fk1 q.fk1 = .ok fs2 ∧ ∃ fd1, sadd fs1 fs2 = .ok fd1 ∧
      { q with ft := ft, fa := fa, fd0 := fd0, fs1 := fs1, fs2 := fs2, fd1 := fd1 } = q' := by
  simp only [Sequencer.body, bind_eq_ok, pure_eq_ok, Except.ok.injEq]

/-- A body that succeeds keeps FK, FK1 and the control state, and leaves every register normalized. -/
theorem body_keeps {q q' : Sequencer} (h0 : q.fk.Norm) (h1 : q.fk1.Norm) (hb : q.body = .ok q') :
    q'.Normal ∧ q'.fk = q.fk ∧ q'.fk1 = q.fk1 ∧ q'.i = q.i ∧ q'.fsm = q.fsm := by
  obtain ⟨ft, hft, fa, hfa, fd0, hfd0, fs1, hfs1, fs2, hfs2, fd1, hfd1, rfl⟩ := body_eq_ok.1 hb
  have nft := (shl_ok h1 le_rfl (by norm_num) hft).2
  have nfa := (sadd_ok nft (neg_norm h0) hfa).2
  have nfd0 := (mul_ok h0 nfa hfd0).2
  have nfs1 := (mul_ok h0 h0 hfs1).2
  have nfs2 := (mul_ok h1 h1 hfs2).2
  exact ⟨⟨h0, h1, nft, nfa, nfd0, nfs1, nfs2, (sadd_ok nfs1 nfs2 hfd1).2⟩, rfl, rfl, rfl, rfl⟩

/-- What a body that succeeds computes from FK = f and FK1 = g: `f * (2g - f)` and `f^2 + g^2`. -/
theorem body_values {q q' : Sequencer} {f g : Nat} (hf : q.fk = mkBig false f) (hg : q.fk1 = mkBig false g)
    (h0 : q.fk.Norm) (h1 : q.fk1.Norm) (hfg : f ≤ 2 * g) (hb : q.body = .ok q') :
    q'.fd0 = mkBig false (f * (2 * g - f)) ∧ q'.fd1 = mkBig false (f * f + g * g) := by
  obtain ⟨ft, hft, fa, hfa, fd0, hfd0, fs1, hfs1, fs2, hfs2, fd1, hfd1, rfl⟩ := body_eq_ok.1 hb
  obtain ⟨eft, nft⟩ := shl_ok h1 le_rfl (by norm_num) hft
  obtain ⟨efa, nfa⟩ := sadd_ok nft (neg_norm h0) hfa
  obtain ⟨efd0, nfd0⟩ := mul_ok h0 nfa hfd0
  obtain ⟨efs1, nfs1⟩ := mul_ok h0 h0 hfs1
  obtain ⟨efs2, nfs2⟩ := mul_ok h1 h1 hfs2
  obtain ⟨efd1, nfd1⟩ := sadd_ok nfs1 nfs2 hfd1
  have vf : q.fk.val = f := by rw [hf, mkBig_false_val]
  have vg : q.fk1.val = g := by rw [hg, mkBig_false_val]
  have vft : ft.val = (2 * g : Nat) := by
    rw [eft, hg, mkBig_mag, mkBig_sign, Bool.false_and, mkBig_false_val]; ring_nf
  have vfa : fa.val = (2 * g - f : Nat) := by
    rw [efa, ofInt_val, neg_val, vft, vf]; omega
  constructor
  · show fd0 = _
    rw [efd0, vf, vfa, ← ofInt_natCast]; push_cast; rfl
  · show fd1 = _
    rw [efd1, efs1, efs2, ofInt_val, ofInt_val, vf, vg, ← ofInt_natCast]; push_cast; rfl

/-! ### The selection and the arrow (R184, R185) -/

theorem select_keeps {q q' : Sequencer} {bit : Bool} (h : q.Normal) (hs : q.select bit = .ok q') :
    q'.Normal ∧ q'.i = q.i ∧ q'.fsm = q.fsm := by
  obtain ⟨h0, h1, h2, h3, h4, h5, h6, h7⟩ := h
  unfold Sequencer.select at hs
  cases bit with
  | true =>
    simp only [if_true, bind_eq_ok, pure_eq_ok, Except.ok.injEq] at hs
    obtain ⟨u, hu, rfl⟩ := hs
    exact ⟨⟨h7, (sadd_ok h4 h7 hu).2, h2, h3, h4, h5, h6, h7⟩, rfl, rfl⟩
  | false =>
    simp only [Bool.false_eq_true, if_false, pure_eq_ok, Except.ok.injEq] at hs
    subst hs
    exact ⟨⟨h4, h7, h2, h3, h4, h5, h6, h7⟩, rfl, rfl⟩

theorem select_values {q q' : Sequencer} {bit : Bool} {a b : Nat} (ha : q.fd0 = mkBig false a)
    (hb : q.fd1 = mkBig false b) (h4 : q.fd0.Norm) (h7 : q.fd1.Norm) (hs : q.select bit = .ok q') :
    q'.fk = mkBig false (if bit then b else a) ∧ q'.fk1 = mkBig false (if bit then a + b else b) := by
  unfold Sequencer.select at hs
  cases bit with
  | true =>
    simp only [if_true, bind_eq_ok, pure_eq_ok, Except.ok.injEq] at hs
    obtain ⟨u, hu, rfl⟩ := hs
    refine ⟨hb, ?_⟩
    show u = _
    rw [(sadd_ok h4 h7 hu).1, ha, hb, mkBig_false_val, mkBig_false_val, if_pos rfl, ← ofInt_natCast]
    push_cast; rfl
  | false =>
    simp only [Bool.false_eq_true, if_false, pure_eq_ok, Except.ok.injEq] at hs
    subst hs
    exact ⟨ha, hb⟩

theorem advance_keeps (q : Sequencer) :
    q.advance.fk = q.fk ∧ q.advance.fk1 = q.fk1 ∧ (q.Normal → q.advance.Normal) := by
  unfold Sequencer.advance
  split <;> exact ⟨rfl, rfl, fun h => h⟩

/-- All an iteration that succeeds did. -/
theorem iteration_eq_ok {k : Nat} {q q' : Sequencer} :
    q.iteration k = .ok q' ↔ ∃ q1, q.body = .ok q1 ∧
      ∃ q2, q1.select (k.testBit q.i.val) = .ok q2 ∧ q2.advance = q' := by
  simp only [Sequencer.iteration, bind_eq_ok, pure_eq_ok, Except.ok.injEq]

/-- One iteration that succeeds, from FK = f and FK1 = g (R183, R184). -/
theorem iteration_ok {k : Nat} {q q' : Sequencer} {f g : Nat} (hf : q.fk = mkBig false f)
    (hg : q.fk1 = mkBig false g) (h0 : q.fk.Norm) (h1 : q.fk1.Norm) (hfg : f ≤ 2 * g)
    (h : q.iteration k = .ok q') :
    q'.Normal ∧
      q'.fk = mkBig false (if k.testBit q.i.val then f * f + g * g else f * (2 * g - f)) ∧
      q'.fk1 = mkBig false (if k.testBit q.i.val then f * (2 * g - f) + (f * f + g * g) else f * f + g * g) := by
  obtain ⟨q1, hb, q2, hs, rfl⟩ := iteration_eq_ok.1 h
  obtain ⟨n1, -⟩ := body_keeps h0 h1 hb
  obtain ⟨e0, e1⟩ := body_values hf hg h0 h1 hfg hb
  obtain ⟨n2, -⟩ := select_keeps n1 hs
  obtain ⟨s0, s1⟩ := select_values e0 e1 n1.2.2.2.2.1 n1.2.2.2.2.2.2.2 hs
  obtain ⟨a0, a1, an⟩ := advance_keeps q2
  exact ⟨an n2, a0.trans s0, a1.trans s1⟩

/-- An iteration that succeeds keeps the working registers normalized. -/
theorem iteration_keeps {k : Nat} {q q' : Sequencer} (hn : q.Normal) (h : q.iteration k = .ok q') :
    q'.Normal := by
  obtain ⟨q1, hb, q2, hs, rfl⟩ := iteration_eq_ok.1 h
  exact (advance_keeps q2).2.2 (select_keeps (body_keeps hn.1 hn.2.1 hb).1 hs).1

/-- A run of iterations keeps the working registers normalized (R39). -/
theorem iterate_keeps {k n : Nat} {q q' : Sequencer} (hn : q.Normal) (h : q.iterate k n = .ok q') :
    q'.Normal := by
  induction n generalizing q with
  | zero => injection h with h; exact h ▸ hn
  | succ n ih =>
    unfold Sequencer.iterate at h
    split at h
    · obtain ⟨q1, h1, h2⟩ := bind_eq_ok.1 h
      exact ih (iteration_keeps hn h1) h2
    · injection h with h; exact h ▸ hn
    · injection h with h; exact h ▸ hn

theorem start_keeps {k : Nat} {q : Sequencer} (hn : q.Normal) : (q.start k).Normal := by
  obtain ⟨-, h1, h2⟩ := hn
  unfold Sequencer.start
  split
  · exact ⟨mkBig_norm _ (by split <;> decide), h1, h2⟩
  · exact ⟨mkBig_norm _ (by decide), mkBig_norm _ (by decide), h2⟩

/-- A FIB run that succeeds leaves every working register normalized (R39). -/
theorem run_keeps {k : Nat} {q q' : Sequencer} (hn : q.Normal) (h : q.run k = .ok q') : q'.Normal :=
  iterate_keeps (start_keeps hn) h

end Sys2Proof.Machine
end

