-- ==== Sys2Proof/Laws/Memory.lean ====
section
/-! SUPPORT. DEC_BUF: what a conversion leaves there, and that its canonical form is kept. -/

namespace Sys2Proof.Machine

/-- Reading the `n` cells from `a` on: the string's byte, 0x00 beyond it, nothing outside (R174). -/
theorem read_decCells (n a : Nat) (str : List Byte) (i : Nat) :
    (decCells n a str).read i =
      if a ≤ i ∧ i < a + n then some (str.getD (i - a) 0) else none := by
  induction n generalizing a str with
  | zero => rw [if_neg (by omega)]; rfl
  | succ n ih =>
    unfold decCells Memory.read
    rw [List.lookup_cons]
    by_cases h : i = a
    · subst h
      cases str <;> simp
    · rw [show (i == a) = false by simpa using h]
      show List.lookup i (decCells n (a + 1) str.tail) = _
      have hih := ih (a + 1) str.tail
      unfold Memory.read at hih
      rw [hih]
      by_cases hc : a + 1 ≤ i ∧ i < a + 1 + n
      · rw [if_pos hc, if_pos (by omega)]
        have hi : i - a = (i - (a + 1)) + 1 := by omega
        rw [hi]
        cases str <;> simp
      · rw [if_neg hc, if_neg (by omega)]

theorem risingFrom_decCells (n a lo : Nat) (str : List Byte) (h : lo ≤ a) :
    risingFrom lo (decCells n a str) = true := by
  induction n generalizing a lo str with
  | zero => rfl
  | succ n ih => simp [decCells, risingFrom, h, ih (a + 1) (a + 1) str.tail le_rfl]

theorem decCells_below (n a : Nat) (str : List Byte) : ∀ c ∈ decCells n a str, c.1 < a + n := by
  induction n generalizing a str with
  | zero => simp [decCells]
  | succ n ih =>
    intro c hc
    rcases List.mem_cons.1 hc with rfl | hc
    · show a < a + (n + 1)
      omega
    · have := ih (a + 1) str.tail c hc
      omega

/-- What a conversion writes is in canonical form. -/
theorem wf_decCells (str : List Byte) : Memory.wf (decCells Config.MAXD 0 str) = true := by
  unfold Memory.wf
  rw [risingFrom_decCells _ _ _ _ le_rfl, Bool.true_and, List.all_eq_true]
  intro c hc
  have := decCells_below _ _ _ c hc
  simpa using this

/-- The one operation that writes DEC_BUF keeps its canonical form. -/
theorem wf_writeDec (s : State) (str : List Byte) : (s.writeDec str).decBuf.wf = true := wf_decCells str

/-- DEC_BUF after a conversion: the string's bytes, then 0x00 (R174). -/
theorem read_writeDec (s : State) (str : List Byte) {n : Nat} (h : n < Config.MAXD) :
    (s.writeDec str).decBuf.read n = some (str.getD n 0) := by
  rw [writeDec_decBuf, read_decCells, if_pos ⟨Nat.zero_le _, by omega⟩, Nat.sub_zero]

theorem lookup_eq_none (m : Memory) (n : Nat) (h : ∀ c ∈ m, c.1 ≠ n) : m.read n = none := by
  unfold Memory.read
  rw [List.lookup_eq_none_iff]
  intro c hc
  simpa using (h c hc).symm

/-- In canonical form nothing is listed at or beyond MAXD (R34). -/
theorem read_beyond_of_wf {m : Memory} (h : m.wf = true) {n : Nat} (hn : Config.MAXD ≤ n) :
    m.read n = none := by
  unfold Memory.wf at h
  rw [Bool.and_eq_true, List.all_eq_true] at h
  refine lookup_eq_none m n fun c hc => ?_
  have := of_decide_eq_true (h.2 c hc)
  omega

/-- A memory that lists nothing is in canonical form: DEC_BUF after reset. -/
theorem wf_nil : Memory.wf [] = true := rfl

end Sys2Proof.Machine
end

