-- ==== Sys2Proof/Laws/Step.lean ====
section
/-! SUPPORT. What one step can do, said once: which event it serves and how. -/

namespace Sys2Proof.Machine

/-! ### The offset of an access (R52) -/

/-- FIBCORE sees the offset of an access to the window, wherever the platform puts the window. -/
theorem offset_base_add (k : AccessKind) (w : Width) {off : Nat} (h : off < Config.WINDOW) :
    (HostAccess.mk k (Config.BASE + off) w).offset = off := by
  unfold HostAccess.offset Config.BASE
  rw [Nat.mul_add_mod, Nat.mod_eq_of_lt h]

/-- An aligned 32-bit read of the window is served (R58). -/
theorem serve_hostRead (s : State) {off : Nat} (h : off < Config.WINDOW) (ha : off % 4 = 0) :
    s.serve (hostRead off) = .next (s.serveRead off) := by
  show s.serveAccess _ = _
  unfold State.serveAccess
  rw [offset_base_add _ _ h, if_neg (by simp), if_neg (by simpa using ha)]

/-- An aligned 32-bit write of the window is served (R58). -/
theorem serve_hostWrite (s : State) (v : Word) {off : Nat} (h : off < Config.WINDOW) (ha : off % 4 = 0) :
    s.serve (hostWrite off v) = .next (s.serveWrite off v) := by
  show s.serveAccess _ = _
  unfold State.serveAccess
  rw [offset_base_add _ _ h, if_neg (by simp), if_neg (by simpa using ha)]

/-! ### One step, by what comes next -/

theorem step_event {s : State} {e : Event} {es : List Event} (h : s.input = e :: es) :
    step s = ({ s with input := es } : State).serve e := by
  unfold step State.turn
  rw [h]

theorem step_no_event_busy {s : State} (h : s.input = []) (hb : s.status.busy = true) :
    step s = runLatched s := by
  unfold step State.turn
  rw [h]
  exact if_pos hb

theorem step_no_event_idle {s : State} (h : s.input = []) (hb : s.status.busy = false) :
    step s = .fault .idle := by
  unfold step State.turn
  rw [h]
  exact if_neg (by simp [hb])

/-- The step that serves an aligned 32-bit read of the window. -/
theorem step_hostRead {s : State} {es : List Event} {off : Nat} (h : off < Config.WINDOW) (ha : off % 4 = 0)
    (hi : s.input = hostRead off :: es) :
    step s = .next (({ s with input := es } : State).serveRead off) := by
  rw [step_event hi]
  exact serve_hostRead _ h ha

/-- The step that serves an aligned 32-bit write of the window. -/
theorem step_hostWrite {s : State} {es : List Event} {off : Nat} {v : Word} (h : off < Config.WINDOW)
    (ha : off % 4 = 0) (hi : s.input = hostWrite off v :: es) :
    step s = .next (({ s with input := es } : State).serveWrite off v) := by
  rw [step_event hi]
  exact serve_hostWrite _ _ h ha

/-- All that a step which answers a next state did: served a read, served a write, completed the
command in flight, passed over a completion with none, or was reset. -/
theorem step_cases {s t : State} (h : step s = .next t) :
    (s.input = [] ∧ s.status.busy = true ∧ runLatched s = .next t) ∨
    ∃ e es, s.input = e :: es ∧
      ((∃ a, e = .access a ∧ a.width = .w32 ∧ a.offset % 4 = 0 ∧
          ((a.kind = .read ∧ t = ({ s with input := es } : State).serveRead a.offset) ∨
           ∃ v, a.kind = .write v ∧ t = ({ s with input := es } : State).serveWrite a.offset v)) ∨
       (e = .complete ∧ s.status.busy = true ∧ runLatched { s with input := es } = .next t) ∨
       (e = .complete ∧ s.status.busy = false ∧ t = { s with input := es }) ∨
       (e = .reset ∧ t = ({ s with input := es } : State).assertReset)) := by
  cases hi : s.input with
  | nil =>
    cases hb : s.status.busy with
    | true => rw [step_no_event_busy hi hb] at h; exact .inl ⟨rfl, rfl, h⟩
    | false => rw [step_no_event_idle hi hb] at h; cases h
  | cons e es =>
    rw [step_event hi] at h
    refine .inr ⟨e, es, rfl, ?_⟩
    cases e with
    | access a =>
      left
      refine ⟨a, rfl, ?_⟩
      simp only [State.serve, State.serveAccess] at h
      split at h
      · cases h
      · next hw =>
        split at h
        · cases h
        · next ha =>
          refine ⟨by simpa using hw, by simpa using ha, ?_⟩
          split at h
          · next hk => injection h with h; exact .inl ⟨hk, h.symm⟩
          · next v hk => injection h with h; exact .inr ⟨v, hk, h.symm⟩
    | complete =>
      simp only [State.serve] at h
      split at h
      · next hb => exact .inr (.inl ⟨rfl, hb, h⟩)
      · next hb =>
        injection h with h
        exact .inr (.inr (.inl ⟨rfl, by simpa using hb, h.symm⟩))
    | reset =>
      injection h with h
      exact .inr (.inr (.inr ⟨rfl, h.symm⟩))
    | accessDuringReset a => cases h

/-! ### Completing the latched command (R76, R203) -/

theorem runLatched_ok {s : State} {i : Instr} (h : decode s.latch = .ok i) : runLatched s = exec i s := by
  unfold runLatched; rw [h]

theorem runLatched_error {s : State} {e : DecodeError} (h : decode s.latch = .error e) :
    runLatched s = .next (s.takeFault .illegalCmd) := by
  unfold runLatched; rw [h]

end Sys2Proof.Machine
end

