-- ==== Sys2Proof/Tests/Slice0.lean ====
section
/-! SUPPORT. Tests on the spec's own words and vectors (30_encoding.md R75, R79, R80; 95_test_vectors.md
section 3), and for every obligation with hypotheses a named witness that meets them together. -/

open Sys2Proof Sys2Proof.Machine

namespace Sys2Proof.Tests

set_option Elab.async false

/-! ### Ill-formed terms are refused (R79) -/

theorem test_rdw_index_65535_is_well_formed : Instr.wellFormed (.rdw 1 65535) = true := by decide
theorem test_rdw_index_65536_is_refused : Instr.wellFormed (.rdw 1 65536) = false := by decide
theorem test_shl_by_31_is_well_formed : Instr.wellFormed (.shl 2 1 31) = true := by decide
theorem test_shl_by_32_is_refused : Instr.wellFormed (.shl 2 1 32) = false := by decide

/-! ### Words bit by bit, from the formats of R72 and the opcodes of R75, one per constructor -/

theorem test_decode_nop : decode 0b00000001_0000_0000_0000_000000000000#32 = .ok .nop := rfl
theorem test_decode_alloc : decode 0b00000010_1111_0000_0000_000000000000#32 = .ok (.alloc 15) := rfl
theorem test_decode_free : decode 0b00000011_1010_0000_0000_000000000000#32 = .ok (.free 10) := rfl
theorem test_decode_copy : decode 0b00000100_0010_0001_0000_000000000000#32 = .ok (.copy 2 1) := rfl
theorem test_decode_swap : decode 0b00000101_0010_0001_0000_000000000000#32 = .ok (.swap 2 1) := rfl
theorem test_decode_pushw : decode 0b00000110_0001_0000_0000_000000000000#32 = .ok (.pushw 1) := rfl
theorem test_decode_rdw : decode 0b00000111_0000_0110_1000_000000000011#32 = .ok (.rdw 6 0x8003) := rfl
theorem test_decode_rdhdr : decode 0b00001000_0000_0111_0000_000000000000#32 = .ok (.rdhdr 7) := rfl
theorem test_decode_bitlen : decode 0b00001001_0000_1001_0000_000000000000#32 = .ok (.bitlen 9) := rfl
theorem test_decode_cmp : decode 0b00001010_0000_0001_0010_000000000000#32 = .ok (.cmp 1 2) := rfl
theorem test_decode_add : decode 0b00010000_0011_0001_0010_000000000000#32 = .ok (.add 3 1 2) := rfl
theorem test_decode_sub : decode 0b00010001_0011_0001_0010_000000000000#32 = .ok (.sub 3 1 2) := rfl
theorem test_decode_addm : decode 0b00010010_0011_0001_0010_000000000000#32 = .ok (.addm 3 1 2) := rfl
theorem test_decode_subm : decode 0b00010011_0011_0001_0010_000000000000#32 = .ok (.subm 3 1 2) := rfl
theorem test_decode_neg : decode 0b00010100_0010_0001_0000_000000000000#32 = .ok (.neg 2 1) := rfl
theorem test_decode_mul : decode 0b00011000_0011_0001_0010_000000000000#32 = .ok (.mul 3 1 2) := rfl
theorem test_decode_shl : decode 0b00011100_0010_0001_0000_000000011111#32 = .ok (.shl 2 1 31) := rfl
theorem test_decode_todec : decode 0b00100000_0000_0011_0000_000000000000#32 = .ok (.todec 3) := rfl
theorem test_decode_fib : decode 0b00110000_0101_0000_0000_000000000000#32 = .ok (.fib 5) := rfl

/-- R77: the all-zero word, the first opcode above the map's last and the last one are reserved. -/
theorem test_decode_reserved_opcodes :
    decode 0x00000000 = .error .reservedOpcode ∧ decode 0x31000000 = .error .reservedOpcode ∧
    decode 0xFF000000 = .error .reservedOpcode := ⟨rfl, rfl, rfl⟩

/-- R72, R76 and vectors "ALLOC with rs1 field non-zero", "CMP with rd field set", "SHL with bit 5 set",
"FIB with rs1 field set", "NOP with bit 0 set". -/
theorem test_decode_must_be_zero :
    decode 0x02110000 = .error .mustBeZero ∧ decode 0x0A112000 = .error .mustBeZero ∧
    decode 0x1C210020 = .error .mustBeZero ∧ decode 0x30010000 = .error .mustBeZero ∧
    decode 0x01000001 = .error .mustBeZero := ⟨rfl, rfl, rfl, rfl, rfl⟩

/-! ### Small states -/

/-- A state with the listed registers valid: index, sign, magnitude. -/
def put (l : List (RegId × Bool × Nat)) (s : State) : State :=
  l.foldl (fun s e => s.setBr e.1 (mkBig e.2.1 e.2.2)) s

/-- The vectors' start state: these registers, DATA and KARG, all else as after reset. -/
def start (l : List (RegId × Bool × Nat)) (data karg : Nat) : State :=
  put l { State.reset with data := BitVec.ofNat 32 data, karg := BitVec.ofNat 32 karg }

/-- The next state of an outcome, if it is one. -/
def nextOf : Host.Outcome State Fault Refusal → Option State
  | .next t => some t
  | .fault _ => none
  | .refused _ => none

theorem exists_next {o : Host.Outcome State Fault Refusal} {p : State → Bool}
    (h : (nextOf o).any p = true) : ∃ t, o = .next t ∧ p t = true := by
  cases o with
  | next t => exact ⟨t, rfl, by simpa [nextOf] using h⟩
  | fault f => simp [nextOf] at h
  | refused r => simp [nextOf] at h

/-- One step on the command word `w`, issued from the start state. -/
def ran (l : List (RegId × Bool × Nat)) (data karg w : Nat) : Option State :=
  nextOf (step ((start l data karg).withFetchWord 32 w))

/-- The valid registers, DATA and the STATUS word of a state are these. -/
def ends (l : List (RegId × Bool × Nat)) (data status : Nat) (o : Option State) : Bool :=
  o.any fun t => decide (t.regs = (put l State.reset).regs) && t.data.toNat == data &&
    t.status.word.toNat == status

/-- DEC_LEN and the first words of the DEC window are these. -/
def shows (len : Nat) (ws : List Nat) (o : Option State) : Bool :=
  o.any fun t => t.decLen.toNat == len && ws.zipIdx.all fun w => (t.decWord (4 * w.2)).toNat == w.1

/-! ### The spec's vectors (95_test_vectors.md section 3), at most two per command -/

theorem test_nop : ends [] 0 0x00000002 (ran [] 0 0 0x01000000) = true := by decide +kernel
theorem test_reserved_word_raises_illegal_cmd :
    ends [(1, false, 1)] 0 0x00001016 (ran [(1, false, 1)] 0 0 0x15110000) = true := by decide +kernel
theorem test_alloc_over_a_valid_register :
    ends [(1, false, 0)] 0 0x00000002 (ran [(1, true, 5)] 0 0 0x02100000) = true := by decide +kernel
theorem test_alloc_top_word :
    ends [(1, false, 0xFFFFFFFF)] 0xFFFFFFFF 0x00000002 (ran [] 0xFFFFFFFF 0 0x02100000) = true := by
  decide +kernel
theorem test_free : ends [] 0 0x00000002 (ran [(1, false, 3)] 0 0 0x03100000) = true := by decide +kernel
theorem test_free_twice : ends [] 0 0x00002016 (ran [] 0 0 0x03100000) = true := by decide +kernel
theorem test_copy : ends [(1, true, 5), (2, true, 5)] 0 0x00000002
    (ran [(1, true, 5), (2, false, 9)] 0 0 0x04210000) = true := by decide +kernel
theorem test_copy_to_invalid :
    ends [(1, true, 5)] 0 0x00002016 (ran [(1, true, 5)] 0 0 0x04210000) = true := by decide +kernel
theorem test_swap : ends [(1, true, 2), (2, false, 1)] 0 0x00000002
    (ran [(1, false, 1), (2, true, 2)] 0 0 0x05210000) = true := by decide +kernel
theorem test_swap_with_itself :
    ends [(1, false, 1)] 0 0x00000002 (ran [(1, false, 1)] 0 0 0x05110000) = true := by decide +kernel
theorem test_pushw_negative :
    ends [(1, true, 0x300000005)] 5 0x00000002 (ran [(1, true, 3)] 5 0 0x06100000) = true := by
  decide +kernel
theorem test_pushw_full_register :
    ends [(1, false, 2 ^ 2016)] 0 0x00003016 (ran [(1, false, 2 ^ 2016)] 0 0 0x06100000) = true := by
  decide +kernel
theorem test_rdw_second_word : ends [(1, false, 0x100000002)] 1 0x00000002
    (ran [(1, false, 0x100000002)] 0xDEADBEEF 0 0x07010001) = true := by decide +kernel
theorem test_rdw_beyond_len : ends [(1, true, 0x100000002)] 0 0x00000002
    (ran [(1, true, 0x100000002)] 0xDEADBEEF 0 0x0701FFFF) = true := by decide +kernel
theorem test_rdhdr_negative : ends [(1, true, 0x100000002)] 0xC0000002 0x00000002
    (ran [(1, true, 0x100000002)] 0xDEADBEEF 0 0x08010000) = true := by decide +kernel
theorem test_rdhdr_invalid :
    ends [] 0 0x00000002 (ran [] 0xDEADBEEF 0 0x08010000) = true := by decide +kernel
theorem test_bitlen_of_minus_8 : ends [(1, true, 8)] 4 0x00000002
    (ran [(1, true, 8)] 0xDEADBEEF 0 0x09010000) = true := by decide +kernel
theorem test_bitlen_full_register : ends [(1, false, 2 ^ 2048 - 1)] 2048 0x00000002
    (ran [(1, false, 2 ^ 2048 - 1)] 0xDEADBEEF 0 0x09010000) = true := by decide +kernel
theorem test_cmp_high_word_decides : ends [(1, false, 0x200000000), (2, false, 0x1FFFFFFFF)] 0 0x00000102
    (ran [(1, false, 0x200000000), (2, false, 0x1FFFFFFFF)] 0 0 0x0A012000) = true := by decide +kernel
theorem test_cmp_ignores_signs : ends [(1, true, 7), (2, false, 7)] 0 0x00000002
    (ran [(1, true, 7), (2, false, 7)] 0 0 0x0A012000) = true := by decide +kernel
theorem test_add_carries_through_two_words :
    ends [(1, false, 2 ^ 64 - 1), (2, false, 1), (3, false, 2 ^ 64)] 0 0x00000002
      (ran [(1, false, 2 ^ 64 - 1), (2, false, 1), (3, false, 0)] 0 0 0x10312000) = true := by
  decide +kernel
theorem test_add_capacity_on_provisional_length :
    ends [(1, false, 2 ^ 2047), (2, false, 0), (3, false, 0)] 0 0x00003016
      (ran [(1, false, 2 ^ 2047), (2, false, 0), (3, false, 0)] 0 0 0x10312000) = true := by
  decide +kernel
theorem test_sub_borrows_across_words :
    ends [(1, false, 2 ^ 64), (2, false, 1), (3, false, 2 ^ 64 - 1)] 0 0x00000002
      (ran [(1, false, 2 ^ 64), (2, false, 1), (3, false, 0)] 0 0 0x11312000) = true := by
  decide +kernel
theorem test_sub_zero_from_the_largest :
    ends [(1, false, 2 ^ 2048 - 1), (2, false, 0), (3, false, 0)] 0 0x00003016
      (ran [(1, false, 2 ^ 2048 - 1), (2, false, 0), (3, false, 0)] 0 0 0x11312000) = true := by
  decide +kernel
theorem test_addm_ignores_signs :
    ends [(1, true, 0xFFFFFFFF), (2, false, 1), (3, false, 2 ^ 32)] 0 0x00000002
      (ran [(1, true, 0xFFFFFFFF), (2, false, 1), (3, false, 0)] 0 0 0x12312000) = true := by
  decide +kernel
theorem test_addm_in_place :
    ends [(1, false, 14)] 0 0x00000002 (ran [(1, true, 7)] 0 0 0x12111000) = true := by decide +kernel
theorem test_subm_trims_three_words :
    ends [(1, false, 2 ^ 96 + 5), (2, false, 2 ^ 96), (3, false, 5)] 0 0x00000002
      (ran [(1, false, 2 ^ 96 + 5), (2, false, 2 ^ 96), (3, false, 0)] 0 0 0x13312000) = true := by
  decide +kernel
theorem test_subm_precondition :
    ends [(1, false, 1), (2, false, 2 ^ 32), (3, false, 0)] 0 0x00002016
      (ran [(1, false, 1), (2, false, 2 ^ 32), (3, false, 0)] 0 0 0x13312000) = true := by
  decide +kernel
theorem test_neg : ends [(1, true, 5), (2, false, 5)] 0 0x00000002
    (ran [(1, true, 5), (2, false, 0)] 0 0 0x14210000) = true := by decide +kernel
theorem test_neg_zero :
    ends [(1, false, 0)] 0 0x00000002 (ran [(1, false, 0)] 0 0 0x14110000) = true := by decide +kernel
theorem test_mul_2_words_by_3_words :
    ends [(1, false, 2 ^ 64 - 1), (2, false, 0x10000000100000001),
        (3, false, 0x100000000FFFFFFFFFFFFFFFEFFFFFFFF)] 0 0x00000002
      (ran [(1, false, 2 ^ 64 - 1), (2, false, 0x10000000100000001), (3, false, 0)] 0 0 0x18312000)
      = true := by decide +kernel
theorem test_mul_in_place : ends [(1, false, 0x10000000200000001)] 0 0x00000002
    (ran [(1, false, 0x100000001)] 0 0 0x18111000) = true := by decide +kernel
theorem test_shl_bits_cross_words :
    ends [(1, false, 0x123456789ABCDEF0), (2, false, 0x123456789ABCDEF00000)] 0 0x00000002
      (ran [(1, false, 0x123456789ABCDEF0), (2, false, 0)] 0 0 0x1C210010) = true := by decide +kernel
theorem test_shl_by_0_writes_nothing : ends [(1, false, 5), (2, false, 7)] 0 0x00000002
    (ran [(1, false, 5), (2, false, 7)] 0 0 0x1C210000) = true := by decide +kernel
theorem test_todec_negative :
    shows 8 [0x3332312D, 0x37363534, 0] (ran [(1, true, 1234567)] 0 0 0x20010000) = true := by
  decide +kernel
theorem test_todec_zero :
    shows 1 [0x00000030, 0] (ran [(1, false, 0)] 0 0 0x20010000) = true := by decide +kernel
theorem test_fib_100 :
    shows 21 [0x32343533, 0x34383432, 0x39373138, 0x39313632, 0x37303531, 0x00000035]
      (ran [(0, false, 7)] 0 100 0x30000000) = true := by decide +kernel
theorem test_fib_12_leaves_other_registers : ends [(0, false, 1), (3, false, 144)] 0 0x00000002
    (ran [(0, false, 1), (3, true, 4)] 0 12 0x30300000) = true := by decide +kernel

/-! ### Witnesses: a state for each statement's hypotheses -/

/-- Ten valid registers, small, large and at the capacity's edge; BR10 to BR15 invalid. -/
def demo : State :=
  start [(0, false, 7), (1, true, 5), (2, false, 3), (3, false, 0), (4, false, 2 ^ 2047),
    (5, false, 2 ^ 2016), (6, false, 2 ^ 1984), (7, false, 2 ^ 1024), (8, true, 2 ^ 1024 - 1),
    (9, false, 2 ^ 2048 - 1)] 0xDEADBEEF 10

/-- The demo state with a command in flight and the events `es` to come. -/
def busyDemo (c : Word) (es : List Event) : State := { demo.issue c with input := es }

/-- A host access at offset `off` of a window placed at address 0. -/
def at0 (k : AccessKind) (off : Nat) : Event := .access ⟨k, off, .w32⟩

theorem norms_of {s : State}
    (h : ((List.finRange 16).all fun r => (s.br r).all fun x => decide x.Norm) = true) :
    ∀ r x, s.br r = some x → x.Norm := by
  intro r x hx
  have h1 := List.all_eq_true.1 h r (List.mem_finRange r)
  rw [hx] at h1
  exact of_decide_eq_true h1

theorem demo_norms : ∀ r x, demo.br r = some x → x.Norm := norms_of (by decide +kernel)

theorem witness_DecodeOfEncode :
    Instr.wellFormed (.rdw 15 65535) = true ∧ Instr.wellFormed (.shl 0 15 31) = true := by decide

theorem witness_EncodeOfDecode : decode 0x0701FFFF = .ok (.rdw 1 65535) := rfl

theorem witness_IllegalWordsExactly :
    (¬ assignedOpcode 0x00000000 ∧ ¬ assignedOpcode 0x31000000 ∧ ¬ assignedOpcode 0xFF000000) ∧
    mustBeZeroViolated 0x01000001 ∧ mustBeZeroViolated 0x1C210020 ∧ ¬ mustBeZeroViolated 0x1C21001F := by
  unfold assignedOpcode mustBeZeroViolated
  decide

theorem witness_StepRunsTheLatchedCommand :
    (busyDemo 0x10312000 [.complete]).completesNext ∧ (busyDemo 0x10312000 []).completesNext ∧
    decode (busyDemo 0x10312000 []).latch = .ok (.add 3 1 2) :=
  ⟨⟨rfl, .inr ⟨[], rfl⟩⟩, ⟨rfl, .inl rfl⟩, rfl⟩

theorem witness_IllegalWordRaisesIllegalCmd_reserved :
    (busyDemo 0xFF000000 []).completesNext ∧ ¬ assignedOpcode (busyDemo 0xFF000000 []).latch :=
  ⟨⟨rfl, .inl rfl⟩, by unfold assignedOpcode; decide +kernel⟩

theorem witness_IllegalWordRaisesIllegalCmd_mustBeZero :
    (busyDemo 0x01000001 [.complete]).completesNext ∧
    mustBeZeroViolated (busyDemo 0x01000001 [.complete]).latch :=
  ⟨⟨rfl, .inr ⟨[], rfl⟩⟩, by unfold mustBeZeroViolated; decide +kernel⟩

theorem witness_IssueLatchesTheWord : ∃ es : List Event,
    ({ demo with input := hostWrite 0x000 0x00000000 :: es } : State).status.busy = false ∧
    (es = [] ∨ ∃ rest, es = .complete :: rest) ∧ ¬ assignedOpcode 0x00000000 :=
  ⟨[.complete], rfl, .inr ⟨[], rfl⟩, by unfold assignedOpcode; decide⟩

theorem witness_WritesWhileBusyAreDropped_dropped : ∀ off, (off = 0x000 ∨ off = 0x008 ∨ off = 0x00C) →
    (busyDemo 0x01000000 [hostWrite off 7]).status.busy = true ∧
    (busyDemo 0x01000000 [hostWrite off 7]).input = hostWrite off 7 :: [] := fun _ _ => ⟨rfl, rfl⟩

theorem witness_WritesWhileBusyAreDropped_ctrl :
    (busyDemo 0x01000000 [hostWrite 0x014 1]).status.busy = true ∧
    (busyDemo 0x01000000 [hostWrite 0x014 1]).input = hostWrite 0x014 1 :: [] ∧
    (1 : Word).getLsbD 0 = true ∧
    (busyDemo 0x01000000 [hostWrite 0x014 2]).input = hostWrite 0x014 2 :: [] ∧
    (2 : Word).getLsbD 0 = false := ⟨rfl, rfl, by decide, rfl, by decide⟩

theorem witness_WritesWhileBusyAreDropped_ignored : ∀ off ∈ [0x004, 0x010, 0x018, 0x01C, 0x020, 0x400, 0x7FC],
    off < 2048 ∧ off % 4 = 0 ∧ off ≠ 0x000 ∧ off ≠ 0x008 ∧ off ≠ 0x00C ∧ off ≠ 0x014 := by decide

theorem witness_WritesWhileBusyAreDropped_held : ∃ t,
    step (busyDemo 0x01000000 [at0 (.write 7) 0x00C]) = .next t ∧ t.status.busy = true :=
  exists_next (p := fun t => t.status.busy) (by decide +kernel)

theorem witness_WritesOfDataAndKarg :
    ({ demo with input := [hostWrite 0x008 7] } : State).status.busy = false ∧
    ({ demo with input := [hostWrite 0x008 7] } : State).input = hostWrite 0x008 7 :: [] ∧
    ({ demo with input := [hostWrite 0x00C 7] } : State).input = hostWrite 0x00C 7 :: [] :=
  ⟨rfl, rfl, rfl⟩

theorem witness_CtrlClearsTheStickyBits :
    ({ demo with input := [hostWrite 0x014 0xFFFFFFFF] } : State).input = hostWrite 0x014 0xFFFFFFFF :: [] ∧
    (0xFFFFFFFF : Word).getLsbD 0 = true ∧ (0xFFFFFFFE : Word).getLsbD 0 = false ∧
    ({ demo with input := [hostWrite 0x014 0xFFFFFFFE] } : State).input = hostWrite 0x014 0xFFFFFFFE :: [] ∧
    ({ demo with input := [hostRead 0x014] } : State).input = hostRead 0x014 :: [] :=
  ⟨rfl, by decide, by decide, rfl, rfl⟩

theorem witness_ReadsWhileIdle :
    (0x00C, (10 : Word)) ∈ [(0x000, (0 : Word)), (0x004, demo.status.word), (0x008, demo.data),
      (0x00C, demo.karg), (0x010, demo.decLen), (0x014, 0)] ∧
    ({ demo with input := [hostRead 0x00C] } : State).input = hostRead 0x00C :: [] ∧
    ({ demo with input := [hostRead 0x00C] } : State).status.busy = false :=
  ⟨by decide +kernel, rfl, rfl⟩

theorem witness_ReadsWhileBusy : ∀ off ∈ [0x000, 0x004, 0x00C, 0x014, 0x018, 0x01C, 0x020, 0x3FC] ++
      [0x008, 0x010, 0x400, 0x7FC],
    (busyDemo 0x01000000 [hostRead off]).status.busy = true ∧ off < 2048 ∧ off % 4 = 0 ∧
    (busyDemo 0x01000000 [hostRead off]).input = hostRead off :: [] := by
  intro off h
  refine ⟨rfl, ?_, ?_, rfl⟩ <;> revert off <;> decide

theorem witness_InfoRegistersAreConstant :
    ({ demo with input := [hostRead 0x018] } : State).input = hostRead 0x018 :: [] ∧
    ({ demo with input := [hostRead 0x01C] } : State).input = hostRead 0x01C :: [] ∧
    ({ demo with input := [hostWrite 0x01C 9] } : State).input = hostWrite 0x01C 9 :: [] := ⟨rfl, rfl, rfl⟩

theorem witness_ReservedOffsetsDoNothing : ∀ off ∈ [0x020, 0x3FC],
    0x020 ≤ off ∧ off ≤ 0x3FF ∧ off % 4 = 0 ∧
    ({ demo with input := [hostRead off] } : State).input = hostRead off :: [] ∧
    ({ demo with input := [hostWrite off 9] } : State).input = hostWrite off 9 :: [] := by
  intro off h
  refine ⟨?_, ?_, ?_, rfl, rfl⟩ <;> revert off <;> decide

/-- Written and unwritten bytes on both sides of MAXD: "55" converted, and nothing converted. -/
theorem witness_DecWindowPacksCharacters : ∀ j ∈ [0, 159, 160, 255],
    j ≤ 255 ∧ (demo.writeDec [0x35, 0x35]).status.busy = false ∧ demo.status.busy = false ∧
    ({ demo.writeDec [0x35, 0x35] with input := [hostRead (0x400 + 4 * j)] } : State).input =
      hostRead (0x400 + 4 * j) :: [] ∧
    ({ demo with input := [hostRead (0x400 + 4 * j)] } : State).input = hostRead (0x400 + 4 * j) :: [] := by
  intro j h
  refine ⟨?_, rfl, rfl, rfl, rfl⟩
  revert j; decide

theorem witness_DecWindowPacksCharacters_bytes :
    (demo.writeDec [0x35, 0x35]).decBuf.read (4 * 0 + 1) = some 0x35 ∧
    (demo.writeDec [0x35, 0x35]).decBuf.read (4 * 159 + 3) = some 0 ∧
    demo.decBuf.read (4 * 0 + 0) = none ∧ demo.decBuf.read (4 * 159 + 3) = none ∧
    4 * 159 + 3 < 640 ∧ 640 ≤ 4 * 160 + 0 := by
  refine ⟨?_, ?_, rfl, rfl, by decide, by decide⟩ <;> rw [read_writeDec _ _ (by decide)] <;> rfl

theorem witness_UndefinedAccessesAreRefused :
    Width.w8 ≠ Width.w32 ∧ Width.w16 ≠ Width.w32 ∧
    (∀ addr ∈ [1, 2, 3, 2047], addr % 4 ≠ 0) ∧
    ({ demo with input := [.access ⟨.read, 2, .w32⟩] } : State).input = .access ⟨.read, 2, .w32⟩ :: [] ∧
    (busyDemo 0x30000000 [.accessDuringReset ⟨.read, 4, .w32⟩]).input =
      .accessDuringReset ⟨.read, 4, .w32⟩ :: [] :=
  ⟨by decide, by decide, by decide, rfl, rfl⟩

theorem witness_ReadsHaveNoSideEffects : ∃ t,
    step { demo with input := [at0 .read 0x7FC] } = .next t ∧ t.draws = 1 := by
  obtain ⟨t, ht, hp⟩ := exists_next (o := step { demo with input := [at0 .read 0x7FC] })
    (p := fun t => t.draws == 1) (by decide +kernel)
  exact ⟨t, ht, by simpa using hp⟩

theorem witness_ResetGivesTheResetValues :
    (busyDemo 0x30000000 [.reset, .complete]).input = .reset :: [.complete] := rfl

theorem witness_IdleMachineHasNoStep : demo.input = [] ∧ demo.status.busy = false := ⟨rfl, rfl⟩

theorem witness_CommandInFlightCompletes :
    (busyDemo 0x10312000 [hostRead 0x004, hostWrite 0x000 7, hostRead 0x7FC]).status.busy = true ∧
    ∀ e ∈ (busyDemo 0x10312000 [hostRead 0x004, hostWrite 0x000 7, hostRead 0x7FC]).input,
      ∃ off, off < 2048 ∧ off % 4 = 0 ∧ (e = hostRead off ∨ ∃ v, e = hostWrite off v) := by
  refine ⟨rfl, fun e he => ?_⟩
  rcases List.mem_cons.1 he with rfl | he
  · exact ⟨0x004, by decide, by decide, .inl rfl⟩
  rcases List.mem_cons.1 he with rfl | he
  · exact ⟨0x000, by decide, by decide, .inr ⟨7, rfl⟩⟩
  rcases List.mem_cons.1 he with rfl | he
  · exact ⟨0x7FC, by decide, by decide, .inl rfl⟩
  · cases he

theorem witness_FaultsAreAllOrNothing : ∃ t,
    exec (.add 3 4 4) demo = .next t ∧ t.status.err = true :=
  exists_next (p := fun t => t.status.err) (by decide +kernel)

theorem witness_FaultsAreAllOrNothing_illegal : (busyDemo 0x00000000 [.complete]).completesNext ∧
    ∃ t, step (busyDemo 0x00000000 [.complete]) = .next t ∧ t.status.err = true :=
  ⟨⟨rfl, .inr ⟨[], rfl⟩⟩, exists_next (p := fun t => t.status.err) (by decide +kernel)⟩

theorem witness_InvalidOperandExactly : (∀ r x, demo.br r = some x → x.Norm) ∧
    ∃ t, exec (.subm 3 3 2) demo = .next t ∧ (t.status.errcode == some .invalidOperand) = true :=
  ⟨demo_norms, exists_next (p := fun t => t.status.errcode == some .invalidOperand) (by decide +kernel)⟩

theorem witness_InvalidOperandExactly_unchecked : ∃ t,
    exec (.rdhdr 15) demo = .next t ∧ (t.status.errcode == none) = true :=
  exists_next (p := fun t => t.status.errcode == none) (by decide +kernel)

/-- PUSHW, ADD, SUB, ADDM, MUL and SHL each meet the hypotheses of `CapacityExactly` at a size that
faults, and ADD, MUL and SHL at one that just fits. -/
theorem witness_CapacityExactly :
    (∀ i ∈ [Instr.pushw 5, .add 3 4 3, .sub 3 9 3, .addm 3 4 3, .mul 3 7 7, .shl 3 4 1],
      i.wellFormed = true ∧ i.isFib = false ∧ (∀ r ∈ i.needs, (demo.br r).isSome = true) ∧
      (nextOf (exec i demo)).any (fun t => t.status.errcode == some .capacity) = true) ∧
    (∀ i ∈ [Instr.pushw 6, .add 3 9 1, .sub 3 9 2, .mul 3 8 8, .shl 3 5 31],
      (∀ r ∈ i.needs, (demo.br r).isSome = true) ∧
      (nextOf (exec i demo)).any (fun t => t.status.errcode == none) = true) := by
  decide +kernel

theorem witness_FreeResult : demo.br 1 = some (mkBig true 5) := by decide +kernel

theorem witness_CopyResult : demo.br 1 = some (mkBig true 5) ∧ demo.br 2 = some (mkBig false 3) := by
  decide +kernel

theorem witness_SwapResult : demo.br 9 = some (mkBig false (2 ^ 2048 - 1)) ∧
    demo.br 3 = some (mkBig false 0) := by decide +kernel

theorem witness_PushwResult : demo.br 6 = some (mkBig false (2 ^ 1984)) ∧
    (mkBig false (2 ^ 1984)).Norm ∧ (mkBig false (2 ^ 1984)).len < Config.MAXW := by decide +kernel

theorem witness_RdwResult : demo.br 9 = some (mkBig false (2 ^ 2048 - 1)) := by decide +kernel

theorem witness_RdhdrResult : demo.br 15 = none ∧ demo.br 8 = some (mkBig true (2 ^ 1024 - 1)) ∧
    (mkBig true (2 ^ 1024 - 1)).Norm := by decide +kernel

theorem witness_BitlenResult : demo.br 9 = some (mkBig false (2 ^ 2048 - 1)) ∧
    (mkBig false (2 ^ 2048 - 1)).Norm := by decide +kernel

theorem witness_CmpResult : demo.br 1 = some (mkBig true 5) ∧ demo.br 2 = some (mkBig false 3) ∧
    (mkBig true 5).Norm ∧ (mkBig false 3).Norm := by decide +kernel

/-- Differing signs at the largest magnitude (no size limit), equal signs at the largest sum that fits. -/
theorem witness_AddResult :
    (demo.br 9 = some (mkBig false (2 ^ 2048 - 1)) ∧ demo.br 1 = some (mkBig true 5) ∧
      demo.br 3 = some (mkBig false 0) ∧ (mkBig false (2 ^ 2048 - 1)).Norm ∧ (mkBig true 5).Norm ∧
      (mkBig false (2 ^ 2048 - 1)).sign ≠ (mkBig true 5).sign) ∧
    ((mkBig false (2 ^ 2047 - 1)).sign = (mkBig false (2 ^ 2047 - 1)).sign ∧
      (mkBig false (2 ^ 2047 - 1)).Norm ∧ sumFits (2 ^ 2047 - 1) (2 ^ 2047 - 1)) := by
  unfold sumFits
  decide +kernel

/-- Subtracting a positive from the largest (no size limit), zero from a value that just fits. -/
theorem witness_SubResult :
    (demo.br 9 = some (mkBig false (2 ^ 2048 - 1)) ∧ demo.br 2 = some (mkBig false 3) ∧
      demo.br 3 = some (mkBig false 0) ∧
      (mkBig false (2 ^ 2048 - 1)).sign ≠ (!(mkBig false 3).sign && decide ((mkBig false 3).mag ≠ 0))) ∧
    ((mkBig false (2 ^ 2047 - 1)).sign = (!(mkBig false 0).sign && decide ((mkBig false 0).mag ≠ 0)) ∧
      sumFits (2 ^ 2047 - 1) 0) := by
  unfold sumFits
  decide +kernel

theorem witness_AddmResult : demo.br 1 = some (mkBig true 5) ∧ demo.br 2 = some (mkBig false 3) ∧
    (mkBig true 5).Norm ∧ (mkBig false 3).Norm ∧ sumFits 5 3 := by
  unfold sumFits
  decide +kernel

theorem witness_SubmResult : demo.br 1 = some (mkBig true 5) ∧ demo.br 2 = some (mkBig false 3) ∧
    (mkBig false 3).mag ≤ (mkBig true 5).mag ∧ (mkBig false 3).mag < (mkBig true 5).mag := by
  decide +kernel

theorem witness_NegResult : demo.br 3 = some (mkBig false 0) ∧ demo.br 1 = some (mkBig true 5) ∧
    (mkBig false 0).Norm := by decide +kernel

theorem witness_MulResult : demo.br 8 = some (mkBig true (2 ^ 1024 - 1)) ∧
    demo.br 3 = some (mkBig false 0) ∧ (mkBig true (2 ^ 1024 - 1)).Norm ∧
    productFits (2 ^ 1024 - 1) (2 ^ 1024 - 1) := by
  unfold productFits
  decide +kernel

theorem witness_ShlResult : demo.br 5 = some (mkBig false (2 ^ 2016)) ∧
    demo.br 3 = some (mkBig false 0) ∧ (mkBig false (2 ^ 2016)).Norm ∧
    shiftFits (mkBig false (2 ^ 2016)) 1 ∧ shiftFits (mkBig false (2 ^ 2016)) 31 := by
  unfold shiftFits
  decide +kernel

theorem witness_SubUndoesAdd : (∀ r x, demo.br r = some x → x.Norm) ∧ (1 : RegId) ≠ 2 ∧
    demo.br 1 = some (mkBig true 5) ∧
    ∃ t, exec (.add 1 1 2) demo = .next t ∧
      (t.status.err = false ∧ ∃ u, exec (.sub 1 1 2) t = .next u ∧ u.status.err = false) := by
  refine ⟨demo_norms, by decide, by decide +kernel, ?_⟩
  obtain ⟨t, ht, hp⟩ := exists_next (o := exec (.add 1 1 2) demo)
    (p := fun t => !t.status.err && (nextOf (exec (.sub 1 1 2) t)).any fun u => !u.status.err)
    (by decide +kernel)
  rw [Bool.and_eq_true] at hp
  obtain ⟨u, hu, hq⟩ := exists_next hp.2
  exact ⟨t, ht, by simpa using hp.1, u, hu, by simpa using hq⟩

theorem witness_ShlByOneIsDoubling : (∀ r x, demo.br r = some x → x.Norm) ∧
    (∃ t, exec (.shl 3 1 1) demo = .next t ∧ (!t.status.err) = true) ∧
    ∃ u, exec (.add 3 1 1) demo = .next u ∧ (!u.status.err) = true :=
  ⟨demo_norms, exists_next (p := fun t => !t.status.err) (by decide +kernel),
    exists_next (p := fun t => !t.status.err) (by decide +kernel)⟩

/-- MUL r1, r1, r1 against MUL r4, r2, r3 with the same three values in distinct registers. -/
theorem witness_AliasingIsNoHazard :
    let s := start [(1, true, 5)] 0 0
    let s' := start [(2, true, 5), (3, true, 5), (4, true, 5)] 0 0
    s.br 1 = s'.br 4 ∧ s.br 1 = s'.br 2 ∧ s.br 1 = s'.br 3 ∧
    Instr.mul ∈ [Instr.add, Instr.sub, Instr.addm, Instr.subm, Instr.mul] ∧
    (∃ t, exec (.mul 1 1 1) s = .next t ∧ (!t.status.err) = true) ∧
    ∃ t', exec (.mul 4 2 3) s' = .next t' ∧ (!t'.status.err) = true :=
  ⟨by decide +kernel, by decide +kernel, by decide +kernel, by simp,
    exists_next (p := fun t => !t.status.err) (by decide +kernel),
    exists_next (p := fun t => !t.status.err) (by decide +kernel)⟩

theorem witness_TodecResult : demo.br 8 = some (mkBig true (2 ^ 1024 - 1)) ∧
    (mkBig true (2 ^ 1024 - 1)).Norm ∧ demo.br 3 = some (mkBig false 0) ∧ (mkBig false 0).Norm := by
  decide +kernel

theorem witness_TodecAlwaysFits : demo.br 9 = some (mkBig false (2 ^ 2048 - 1)) ∧
    (mkBig false (2 ^ 2048 - 1)).Norm := by decide +kernel

/-- The last iteration of k = 10 (95_test_vectors.md section 5): Fib(5) = 5 and Fib(6) = 8 at bit 0. -/
theorem witness_IterationDoublesTheIndex :
    let q : Sequencer := { Sequencer.reset with fsm := .iter, i := 0, fk := mkBig false 5, fk1 := mkBig false 8 }
    q.fk.Norm ∧ q.fk1.Norm ∧ q.fk = mkBig false (Nat.fib (10 / 2 ^ (q.i.val + 1))) ∧
    q.fk1 = mkBig false (Nat.fib (10 / 2 ^ (q.i.val + 1) + 1)) ∧
    ∃ q', q.iteration 10 = .ok q' ∧ q'.fk = mkBig false 55 ∧ q'.fk1 = mkBig false 89 := by
  refine ⟨by decide +kernel, by decide +kernel, by decide +kernel, by decide +kernel, ?_⟩
  refine ⟨_, rfl, ?_, ?_⟩ <;> decide +kernel

theorem witness_FibComputesFibonacci : ∀ k ∈ [0, 2, 3, 2949],
    ({ demo with karg := BitVec.ofNat 32 k } : State).karg.toNat ≤ 2949 ∧
    ({ demo with karg := BitVec.ofNat 32 k } : State).br 0 = some (mkBig false 7) := by decide +kernel

theorem witness_FibBeyondCapacity : ∀ k ∈ [2950, 2951, 0xFFFFFFFF],
    2950 ≤ ({ demo with karg := BitVec.ofNat 32 k } : State).karg.toNat ∧
    ({ demo with karg := BitVec.ofNat 32 k } : State).br 0 = some (mkBig false 7) := by decide +kernel

theorem witness_FrameOfRegisters : ∃ t, exec (.swap 1 2) demo = .next t ∧
    (!t.status.err) = true ∧ (3 : RegId) ∉ (Instr.swap 1 2).written := by
  obtain ⟨t, ht, hp⟩ := exists_next (o := exec (.swap 1 2) demo) (p := fun t => !t.status.err)
    (by decide +kernel)
  exact ⟨t, ht, hp, by decide⟩

theorem witness_FrameOfInterfaceRegisters : ∃ t, exec (.fib 0) demo = .next t ∧
    (!t.status.err) = true ∧ (Instr.fib 0).writesData = false := by
  obtain ⟨t, ht, hp⟩ := exists_next (o := exec (.fib 0) demo) (p := fun t => !t.status.err)
    (by decide +kernel)
  exact ⟨t, ht, hp, rfl⟩

theorem witness_FrameOfDecimalOutput : demo.decBuf.wf = true ∧
    (∃ t, exec (.todec 1) demo = .next t ∧ (!t.status.err) = true) ∧
    (∃ t, exec (.add 1 1 2) demo = .next t ∧ (!t.status.err) = true) ∧
    (Instr.todec 1).writesDecimal = true ∧ (Instr.add 1 1 2).writesDecimal = false ∧
    (Instr.todec 1).isFib = false :=
  ⟨by decide +kernel, exists_next (p := fun t => !t.status.err) (by decide +kernel),
    exists_next (p := fun t => !t.status.err) (by decide +kernel), rfl, rfl, rfl⟩

theorem witness_FrameOfStatus :
    (∃ t, exec (.cmp 1 15) demo = .next t ∧ t.status.err = true) ∧
    ∃ t, exec (.add 3 1 2) demo = .next t ∧ (!t.status.err) = true :=
  ⟨exists_next (p := fun t => t.status.err) (by decide +kernel),
    exists_next (p := fun t => !t.status.err) (by decide +kernel)⟩

theorem witness_OnlyAllocAndFreeChangeValidity :
    (demo.br 15 = none ∧ ∃ t, exec (.alloc 15) demo = .next t ∧ (t.br 15).isSome = true) ∧
    (demo.br 1 ≠ none ∧ ∃ t, exec (.free 1) demo = .next t ∧ (t.br 1).isNone = true) :=
  ⟨⟨by decide +kernel, exists_next (p := fun t => (t.br 15).isSome) (by decide +kernel)⟩,
    by decide +kernel, exists_next (p := fun t => (t.br 1).isNone) (by decide +kernel)⟩

/-- A CTRL write with bit 0 clear leaves both sticky bits set. -/
theorem witness_StickyBitsStay :
    let s : State := { demo with
      status := { Status.reset with serr := true, ovr := true }
      input := [at0 (.write 0xFFFFFFFE) 0x014] }
    (∃ t, step s = .next t ∧ (t.status.serr && t.status.ovr) = true) ∧
    (∀ es, s.input ≠ .reset :: es) ∧
    (∀ a v es, s.input = .access a :: es → a.offset = 0x014 → a.kind = .write v → v.getLsbD 0 = false) := by
  refine ⟨exists_next (p := fun t => t.status.serr && t.status.ovr) (by decide +kernel), ?_, ?_⟩
  · intro es h
    simp [at0] at h
  · intro a v es h _ hk
    simp only [at0, List.cons.injEq, Event.access.injEq] at h
    obtain ⟨rfl, _⟩ := h
    simp only [AccessKind.write.injEq] at hk
    subst hk
    decide

theorem witness_OnlyCompletionAndResetClearBusy : ∃ t, step (busyDemo 0x01000000 []) = .next t ∧
    (busyDemo 0x01000000 []).status.busy = true ∧ t.status.busy = false := by
  obtain ⟨t, ht, hp⟩ := exists_next (o := step (busyDemo 0x01000000 [])) (p := fun t => !t.status.busy)
    (by decide +kernel)
  exact ⟨t, ht, rfl, by simpa using hp⟩

theorem witness_OnlyCompletionAndResetClearBusy_reset : ∃ t, step (busyDemo 0x01000000 [.reset]) = .next t ∧
    (busyDemo 0x01000000 [.reset]).status.busy = true ∧ t.status.busy = false :=
  ⟨_, rfl, rfl, rfl⟩

/-- A state with ten registers and a command in flight satisfies the invariant, and steps. -/
theorem witness_StepKeepsInvariant : (busyDemo 0x10312000 []).Inv ∧
    ∃ t, step (busyDemo 0x10312000 []) = .next t ∧ (!t.status.busy) = true :=
  ⟨⟨norms_of (by decide +kernel), by decide +kernel, by decide +kernel, .inl ⟨rfl, rfl⟩,
      by decide +kernel⟩,
    exists_next (p := fun t => !t.status.busy) (by decide +kernel)⟩

/-- Two different states that differ only in the sequencer and, with no command in flight, the latch. -/
theorem witness_HiddenStateIsUnobservable :
    demo.SameButHidden { demo with latch := 7, seq := { Sequencer.reset with fk := mkBig false 9 } } ∧
    demo.latch ≠ 7 :=
  ⟨⟨rfl, fun h => by cases h⟩, by decide +kernel⟩

end Sys2Proof.Tests
end

section
/-! PROOFS. Scope (00_scope.md): the idle machine's stop (R18), and the register frame of every command
(R14, R40, R201). -/

namespace Sys2Proof.Machine

/-! ### Effects that keep a register -/

/-- The effects `r`, computed from the state `s`, leave register `q` as it is in `s` wherever they
succeed. (Where they fault, completion is from `s` itself, R201.) -/
def KeepsBr (s : State) (q : RegId) (r : Except CmdFault State) : Prop :=
  ∀ u, r = .ok u → u.br q = s.br q

/-- A command completed with effects that keep `q` keeps `q`, by either way a completion can go. -/
theorem KeepsBr.complete {s t : State} {q : RegId} {r : Except CmdFault State} (hr : KeepsBr s q r)
    (h : s.complete r = .next t) : t.br q = s.br q := by
  obtain ⟨u, hu, rfl⟩ | ⟨e, _, rfl⟩ := complete_eq_next.mp h
  · exact hr u hu
  · rfl

theorem KeepsBr.ok {s u : State} {q : RegId} (h : u.br q = s.br q) : KeepsBr s q (.ok u) := by
  rintro _ ⟨⟩
  exact h

/-- An operand check or a computation before the effects cannot write a register: it only yields a value. -/
theorem KeepsBr.bind {α : Type} {s : State} {q : RegId} {x : Except CmdFault α}
    {f : α → Except CmdFault State} (hf : ∀ a, KeepsBr s q (f a)) : KeepsBr s q (x >>= f) := by
  intro u hu
  obtain ⟨a, _, ha⟩ := bind_eq_ok.mp hu
  exact hf a u ha

/-! ### The writes that end a command -/

/-- CMP's one write is to STATUS (R123). -/
theorem KeepsBr.setCmp (s : State) (q : RegId) (c : CmpRes) :
    KeepsBr s q (.ok { s with status := s.status.setCmp c }) :=
  .ok (br_of_regs s _ rfl q)

theorem KeepsBr.setBr {q rd : RegId} (hq : q ∉ [rd]) (s : State) (x : BigInt) :
    KeepsBr s q (.ok (s.setBr rd x)) :=
  .ok (by simp [List.ne_of_not_mem_cons hq])

theorem KeepsBr.invalidate {q rd : RegId} (hq : q ∉ [rd]) (s : State) :
    KeepsBr s q (.ok (s.invalidate rd)) :=
  .ok (by simp [List.ne_of_not_mem_cons hq])

theorem KeepsBr.render {q rd : RegId} (hq : q ∉ [rd]) (s : State) (w : Sequencer) :
    KeepsBr s q (.ok (s.render rd w)) :=
  .ok (by simp [List.ne_of_not_mem_cons hq])

/-- SWAP's exchange keeps what is neither of its two destinations (R104). -/
theorem KeepsBr.exchange {q rd rs1 : RegId} (hq : q ∉ [rd, rs1]) (s : State) (x y : BigInt) :
    KeepsBr s q (.ok ((s.setBr rs1 y).setBr rd x)) := by
  obtain ⟨hrd, hrs1⟩ : q ≠ rd ∧ q ≠ rs1 := by simpa using hq
  exact .ok (by simp [hrd, hrs1])

/-- SHL writes its destination, or nothing where the amount is 0 (R160). -/
theorem KeepsBr.shift {q rd : RegId} (hq : q ∉ [rd]) (s : State) (x : BigInt) (shamt : Nat) :
    KeepsBr s q (if shamt = 0 then pure s else shl x shamt >>= fun y => pure (s.setBr rd y)) := by
  split
  · exact .ok rfl
  · exact .bind fun y => .setBr hq s y

/-- A command that checks `rs1`, `rs2` and `rd` and writes a result to `rd` keeps every other register:
ADD, SUB, ADDM, SUBM and MUL, `op` the datapath and `res` the register its result makes. -/
theorem KeepsBr.binary {α : Type} {q rd : RegId} (hq : q ∉ [rd]) (s : State) (rs1 rs2 : RegId)
    (op : BigInt → BigInt → Except CmdFault α) (res : α → BigInt) :
    KeepsBr s q (do
      let a ← s.need rs1
      let b ← s.need rs2
      let _ ← s.need rd
      let x ← op a b
      pure (s.setBr rd (res x))) :=
  .bind fun _ => .bind fun _ => .bind fun _ => .bind fun x => .setBr hq s (res x)

end Sys2Proof.Machine

open Sys2Proof Sys2Proof.Machine

/-- Settles O50, by the command: each one's effects are checks and computations, which write no
register, and then one write, of its destinations only. -/
theorem frameOfRegisters : Obligations.FrameOfRegisters := by
  intro i s t h q hq
  cases i with
  | nop => exact KeepsBr.complete (.ok rfl) h
  | alloc rd => exact KeepsBr.complete (.setBr hq s _) h
  | free rd => exact KeepsBr.complete (.bind fun _ => .invalidate hq s) h
  | copy rd rs1 => exact KeepsBr.complete (.bind fun x => .bind fun _ => .setBr hq s x) h
  | swap rd rs1 => exact KeepsBr.complete (.bind fun x => .bind fun y => .exchange hq s x y) h
  | pushw rd => exact KeepsBr.complete (.bind fun _ => .bind fun y => .setBr hq s y) h
  | rdw rs1 imm16 => exact KeepsBr.complete (.bind fun _ => .ok (br_setData s _ q)) h
  | rdhdr rs1 => exact KeepsBr.complete (.ok (br_setData s _ q)) h
  | bitlen rs1 => exact KeepsBr.complete (.bind fun _ => .ok (br_setData s _ q)) h
  | cmp rs1 rs2 => exact KeepsBr.complete (.bind fun a => .bind fun b => .setCmp s q (cmpmag a b)) h
  | add rd rs1 rs2 => exact KeepsBr.complete (.binary hq s rs1 rs2 sadd id) h
  | sub rd rs1 rs2 => exact KeepsBr.complete (.binary hq s rs1 rs2 ssub id) h
  | addm rd rs1 rs2 => exact KeepsBr.complete (.binary hq s rs1 rs2 addmag (mkBig false)) h
  | subm rd rs1 rs2 => exact KeepsBr.complete (.binary hq s rs1 rs2 submag (mkBig false)) h
  | neg rd rs1 => exact KeepsBr.complete (.bind fun x => .bind fun _ => .setBr hq s (neg x)) h
  | mul rd rs1 rs2 => exact KeepsBr.complete (.binary hq s rs1 rs2 mul id) h
  | shl rd rs1 shamt => exact KeepsBr.complete (.bind fun x => .bind fun _ => .shift hq s x shamt) h
  | todec rs1 => exact KeepsBr.complete (.bind fun x => .ok (br_writeDec s (dec x) q)) h
  | fib rd => exact KeepsBr.complete (.bind fun _ => .bind fun w => .render hq s w) h

/-- Settles O19: it is the model's step with no event to come and BUSY 0 (R18, log 13). -/
theorem idleMachineHasNoStep : Obligations.IdleMachineHasNoStep :=
  fun _ hinput hbusy => step_no_event_idle hinput hbusy
end

section
/-! PROOFS. State (10_state.md): the one effect each command ends with, said once for all 19 commands, and
what a served host write can do. The frames, the whole-machine rules and the invariant rest on these. -/

namespace Sys2Proof.Machine

/-! ### Results are normalized (R22, R23) -/

/-- Every valid register is normalized and within capacity (R22, R23). -/
def State.RegsNorm (s : State) : Prop := ∀ r x, s.br r = some x → x.Norm

/-- A magnitude below `2^(32*MAXW)` makes a normalized register. -/
theorem mkBig_norm_of_lt (b : Bool) {m : Nat} (h : m < 2 ^ (32 * Config.MAXW)) : (mkBig b m).Norm :=
  mkBig_norm b ((nw_le_iff (by decide)).2 h)

/-- One word makes a normalized register: what ALLOC writes (R101). -/
theorem mkBig_word_norm (w : Word) : (mkBig false w.toNat).Norm :=
  mkBig_norm_of_lt false (w.isLt.trans_le (Nat.pow_le_pow_right (by decide) (by decide)))

theorem shlLoop_length (k n : Nat) (ws : List Word) (below : Word) : (shlLoop k n ws below).length = n := by
  induction n generalizing ws below with
  | zero => rfl
  | succ n ih => simp [shlLoop, ih]

/-- A shifted value fits the words it was computed in, so it is normalized whatever the amount (R161). -/
theorem shl_norm {x y : BigInt} {k : Nat} (h : shl x k = .ok y) : y.Norm := by
  obtain ⟨hlen, rfl⟩ := sized_eq_ok h
  refine mkBig_norm_of_lt _ ((magOf_lt _).trans_le (Nat.pow_le_pow_right (by decide) ?_))
  rw [shlLoop_length]
  exact Nat.mul_le_mul_left 32 hlen

theorem pushWord_norm {x y : BigInt} {w : Word} (h : pushWord x w = .ok y) : y.Norm := by
  obtain ⟨hlen, rfl⟩ := sized_eq_ok h
  exact mkBig_norm _ hlen

theorem ssub_norm {a b x : BigInt} (ha : a.Norm) (hb : b.Norm) (h : ssub a b = .ok x) : x.Norm :=
  (sadd_ok ha (neg_norm hb) h).2

theorem addmag_norm {a b : BigInt} {m : Nat} (ha : a.Norm) (hb : b.Norm) (h : addmag a b = .ok m) :
    (mkBig false m).Norm :=
  mkBig_norm _ (addmag_ok_nw ha hb h).2

/-- A magnitude difference is no larger than the first operand (R131). -/
theorem submag_norm {a b : BigInt} {m : Nat} (ha : a.Norm) (h : submag a b = .ok m) :
    (mkBig false m).Norm := by
  rw [submag_eq] at h
  split at h
  · cases h
  · injection h with hm
    exact mkBig_norm_of_lt _ (hm ▸ (Nat.sub_le a.mag b.mag).trans_lt (Norm.mag_lt ha))

/-! ### The effect of a command -/

/-- `Effect s i u`: `u` is what command `i` makes of `s` when it does not fault, before its completion is
recorded in STATUS (R226): by case, the one write the command ends with. -/
inductive Effect (s : State) : Instr → State → Prop where
  /-- NOP, and SHL by 0 (R100, R160). -/
  | nothing {i : Instr} : Effect s i s
  /-- ALLOC, the one write of a register that need not be valid (R101). -/
  | alloc {rd : RegId} : Effect s (.alloc rd) (s.setBr rd (mkBig false s.data.toNat))
  /-- FREE (R102). -/
  | free {rd : RegId} {d : BigInt} (hd : s.br rd = some d) : Effect s (.free rd) (s.invalidate rd)
  /-- A result written to a valid register; it is normalized if the operands were. -/
  | write {i : Instr} {rd : RegId} {d x : BigInt} (hd : s.br rd = some d) (hx : s.RegsNorm → x.Norm) :
      Effect s i (s.setBr rd x)
  /-- SWAP (R104). -/
  | exchange {rd rs1 : RegId} {x y : BigInt} (hx : s.br rs1 = some x) (hy : s.br rd = some y) :
      Effect s (.swap rd rs1) ((s.setBr rs1 y).setBr rd x)
  /-- RDW, RDHDR and BITLEN (R31). -/
  | answer {i : Instr} {v : Word} (hi : i.writesData = true) : Effect s i (s.setData v)
  /-- CMP (R123). -/
  | compare {rs1 rs2 : RegId} {c : CmpRes} :
      Effect s (.cmp rs1 rs2) { s with status := s.status.setCmp c }
  /-- TODEC (R170). -/
  | todec {rs1 : RegId} {x : BigInt} (hx : s.br rs1 = some x) : Effect s (.todec rs1) (s.writeDec (dec x))
  /-- FIB (R180). -/
  | fib {rd : RegId} {d : BigInt} {q : Sequencer} (hd : s.br rd = some d)
      (hq : s.seq.run s.karg.toNat = .ok q) : Effect s (.fib rd) (s.render rd q)

/-- The effects `r` that command `i` computes from `s` are one of its effects wherever they succeed. -/
def HasEffect (s : State) (i : Instr) (r : Except CmdFault State) : Prop := ∀ u, r = .ok u → Effect s i u

theorem HasEffect.ok {s u : State} {i : Instr} (h : Effect s i u) : HasEffect s i (.ok u) := by
  rintro _ ⟨⟩
  exact h

/-- A computation before the effect yields a value, or faults and leaves no effect. -/
theorem HasEffect.bind {α : Type} {s : State} {i : Instr} {m : Except CmdFault α}
    {f : α → Except CmdFault State} (h : ∀ a, m = .ok a → HasEffect s i (f a)) :
    HasEffect s i (m >>= f) := by
  intro u hu
  obtain ⟨a, ha, hfa⟩ := bind_eq_ok.1 hu
  exact h a ha u hfa

/-- Past its check an operand is valid (R204). -/
theorem HasEffect.need {s : State} {i : Instr} {r : RegId} {f : BigInt → Except CmdFault State}
    (h : ∀ x, s.br r = some x → HasEffect s i (f x)) : HasEffect s i (s.need r >>= f) :=
  .bind fun x hx => h x (need_eq_ok.1 hx)

/-- ADD, SUB, ADDM, SUBM and MUL: checks of `rs1`, `rs2` and `rd`, the datapath `op`, and the register
`res` its result makes. -/
theorem HasEffect.binary {α : Type} {s : State} {i : Instr} {rd rs1 rs2 : RegId}
    {op : BigInt → BigInt → Except CmdFault α} {res : α → BigInt}
    (hop : ∀ {a b x}, a.Norm → b.Norm → op a b = .ok x → (res x).Norm) :
    HasEffect s i (do
      let a ← s.need rs1
      let b ← s.need rs2
      let _ ← s.need rd
      let x ← op a b
      pure (s.setBr rd (res x))) :=
  .need fun _ ha => .need fun _ hb => .need fun _ hd => .bind fun _ hx =>
    .ok (.write hd fun hn => hop (hn _ _ ha) (hn _ _ hb) hx)

/-- SHL writes its destination, or nothing where the amount is 0 (R160). -/
theorem HasEffect.shift {s : State} {i : Instr} {rd : RegId} {d : BigInt} (hd : s.br rd = some d)
    (x : BigInt) (shamt : Nat) :
    HasEffect s i (if shamt = 0 then pure s else shl x shamt >>= fun y => pure (s.setBr rd y)) := by
  split
  · exact .ok .nothing
  · exact .bind fun _ hy => .ok (.write hd fun _ => shl_norm hy)

/-- How a command can end: its effect with DONE, or the state before it with the fault (R201, R226). -/
def Ended (s : State) (i : Instr) (t : State) : Prop :=
  (∃ u, Effect s i u ∧ t = u.finish) ∨ ∃ e, t = s.takeFault e

theorem HasEffect.ended {s t : State} {i : Instr} {r : Except CmdFault State} (hr : HasEffect s i r)
    (h : s.complete r = .next t) : Ended s i t := by
  obtain ⟨u, hu, rfl⟩ | ⟨e, _, rfl⟩ := complete_eq_next.1 h
  · exact .inl ⟨u, hr u hu, rfl⟩
  · exact .inr ⟨e, rfl⟩

/-- All that a command can do, for all 19 commands. -/
theorem exec_ended {i : Instr} {s t : State} (h : exec i s = .next t) : Ended s i t := by
  cases i with
  | nop => exact HasEffect.ended (.ok .nothing) h
  | alloc rd => exact HasEffect.ended (.ok .alloc) h
  | free rd => exact HasEffect.ended (.need fun _ hd => .ok (.free hd)) h
  | copy rd rs1 =>
    exact HasEffect.ended (.need fun _ hx => .need fun _ hd => .ok (.write hd fun hn => hn _ _ hx)) h
  | swap rd rs1 => exact HasEffect.ended (.need fun _ hx => .need fun _ hy => .ok (.exchange hx hy)) h
  | pushw rd =>
    exact HasEffect.ended
      (.need fun _ hd => .bind fun _ hy => .ok (.write hd fun _ => pushWord_norm hy)) h
  | rdw rs1 imm16 => exact HasEffect.ended (.need fun _ _ => .ok (.answer rfl)) h
  | rdhdr rs1 => exact HasEffect.ended (.ok (.answer rfl)) h
  | bitlen rs1 => exact HasEffect.ended (.need fun _ _ => .ok (.answer rfl)) h
  | cmp rs1 rs2 => exact HasEffect.ended (.need fun _ _ => .need fun _ _ => .ok .compare) h
  | add rd rs1 rs2 => exact HasEffect.ended (.binary (res := id) fun ha hb hx => (sadd_ok ha hb hx).2) h
  | sub rd rs1 rs2 => exact HasEffect.ended (.binary (res := id) ssub_norm) h
  | addm rd rs1 rs2 => exact HasEffect.ended (.binary addmag_norm) h
  | subm rd rs1 rs2 => exact HasEffect.ended (.binary fun ha _ hm => submag_norm ha hm) h
  | neg rd rs1 =>
    exact HasEffect.ended
      (.need fun _ hx => .need fun _ hd => .ok (.write hd fun hn => neg_norm (hn _ _ hx))) h
  | mul rd rs1 rs2 => exact HasEffect.ended (.binary (res := id) fun ha hb hx => (mul_ok ha hb hx).2) h
  | shl rd rs1 shamt => exact HasEffect.ended (.need fun x _ => .need fun _ hd => .shift hd x shamt) h
  | todec rs1 => exact HasEffect.ended (.need fun _ hx => .ok (.todec hx)) h
  | fib rd => exact HasEffect.ended (.need fun _ hd => .bind fun _ hq => .ok (.fib hd hq)) h

/-- How the command in flight can complete: with the effect of some command, or with a fault. -/
def Completed (s t : State) : Prop :=
  (∃ i u, Effect s i u ∧ t = u.finish) ∨ ∃ e, t = s.takeFault e

/-- All that the completion of the command in flight can do: a latched word that is no command takes its
fault (R203, R226). -/
theorem runLatched_completed {s t : State} (h : runLatched s = .next t) : Completed s t := by
  cases hd : decode s.latch with
  | ok i => exact (exec_ended (runLatched_ok hd ▸ h)).imp_left fun hu => ⟨i, hu⟩
  | error e =>
    rw [runLatched_error hd] at h
    injection h with h
    exact .inr ⟨_, h.symm⟩

/-! ### The effect of a host write -/

/-- `WriteEffect s off v t`: `t` is what a served host write of `v` to offset `off` makes of `s` (R53,
R227), by case. -/
inductive WriteEffect (s : State) (off : Nat) (v : Word) : State → Prop where
  /-- A read-only or reserved offset, or CTRL with bit 0 = 0. -/
  | ignored : WriteEffect s off v s
  /-- CMD, DATA or KARG while BUSY (R227). -/
  | dropped : WriteEffect s off v s.overrun
  /-- CMD while idle (R225). -/
  | issued : WriteEffect s off v (s.issue v)
  /-- DATA while idle (R31). -/
  | data : WriteEffect s off v { s with data := v }
  /-- KARG while idle (R32). -/
  | karg : WriteEffect s off v { s with karg := v }
  /-- CTRL with bit 0 = 1 (R36). -/
  | cleared (hoff : off = 0x014) (hv : v.getLsbD 0 = true) :
      WriteEffect s off v { s with status := s.status.clearSticky }

theorem WriteEffect.unlessBusy {s t : State} {off : Nat} {v : Word} (h : WriteEffect s off v t) :
    WriteEffect s off v (s.unlessBusy t) := by
  unfold State.unlessBusy
  split
  · exact .dropped
  · exact h

theorem WriteEffect.writeCtrl {s : State} {off : Nat} {v : Word} (hoff : off = 0x014) :
    WriteEffect s off v (s.writeCtrl v) := by
  unfold State.writeCtrl
  split
  · next hv => exact .cleared hoff hv
  · exact .ignored

/-- All that a served host write can do (R53). -/
theorem serveWrite_effect (s : State) (off : Nat) (v : Word) :
    WriteEffect s off v (s.serveWrite off v) := by
  unfold State.serveWrite
  split_ifs with _ _ _ hctrl
  · exact .unlessBusy .issued
  · exact .unlessBusy .data
  · exact .unlessBusy .karg
  · exact .writeCtrl hctrl
  · exact .ignored

end Sys2Proof.Machine
end

section
/-! PROOFS. State (10_state.md): the frames of the 19 commands and the rules of the whole machine, each from
the effect a command or a step has. -/

namespace Sys2Proof.Machine

/-! ### What an effect leaves unchanged -/

theorem Effect.data_eq {s u : State} {i : Instr} (h : Effect s i u) (hi : i.writesData = false) :
    u.data = s.data := by
  cases h with
  | answer hw => simp [hw] at hi
  | _ => rfl

/-- KARG, the latch and the model's own fields: no effect writes them. -/
theorem Effect.interface_eq {s u : State} {i : Instr} (h : Effect s i u) :
    u.karg = s.karg ∧ u.latch = s.latch ∧ u.input = s.input ∧ u.readLog = s.readLog ∧ u.draws = s.draws := by
  cases h <;> exact ⟨rfl, rfl, rfl, rfl, rfl⟩

theorem Effect.decimal_eq {s u : State} {i : Instr} (h : Effect s i u) (hi : i.writesDecimal = false) :
    u.decLen = s.decLen ∧ u.decBuf = s.decBuf := by
  cases h with
  | todec => cases hi
  | fib => cases hi
  | _ => exact ⟨rfl, rfl⟩

/-- A conversion writes DEC_BUF in canonical form; nothing else writes it (R174). -/
theorem Effect.decBuf_wf {s u : State} {i : Instr} (h : Effect s i u) (hs : s.decBuf.wf = true) :
    u.decBuf.wf = true := by
  cases h with
  | todec => exact wf_decCells _
  | fib => exact wf_decCells _
  | _ => exact hs

theorem Effect.seq_eq {s u : State} {i : Instr} (h : Effect s i u) (hi : i.isFib = false) :
    u.seq = s.seq := by
  cases h with
  | fib => cases hi
  | _ => rfl

theorem Effect.sticky_eq {s u : State} {i : Instr} (h : Effect s i u) :
    u.status.serr = s.status.serr ∧ u.status.ovr = s.status.ovr := by
  cases h <;> exact ⟨rfl, rfl⟩

theorem Effect.cmpres_eq {s u : State} {i : Instr} (h : Effect s i u) (hi : i.isCmp = false) :
    u.status.cmpres = s.status.cmpres := by
  cases h with
  | compare => cases hi
  | _ => rfl

/-- Writing a valid register changes no valid bit. -/
theorem setBr_br_eq_none_iff {s : State} {rd : RegId} (hd : s.br rd ≠ none) (x : BigInt) (r : RegId) :
    (s.setBr rd x).br r = none ↔ s.br r = none := by
  rw [br_setBr]
  by_cases hr : r = rd
  · simpa [hr] using hd
  · rw [if_neg hr]

/-- A command keeps every valid bit, but for ALLOC, which sets its register's, and FREE, which clears its
register's (R24). -/
theorem Effect.validity {s u : State} {i : Instr} (h : Effect s i u) (r : RegId) :
    (u.br r = none ↔ s.br r = none) ∨ (i = .alloc r ∧ u.br r ≠ none) ∨ (i = .free r ∧ u.br r = none) := by
  cases h with
  | @alloc rd =>
    by_cases hr : r = rd
    · subst hr; exact .inr (.inl ⟨rfl, by simp⟩)
    · exact .inl (by simp [hr])
  | @free rd _ hd =>
    by_cases hr : r = rd
    · subst hr; exact .inr (.inr ⟨rfl, by simp⟩)
    · exact .inl (by simp [hr])
  | write hd hx => exact .inl (setBr_br_eq_none_iff (by simp [hd]) _ r)
  | @exchange rd rs1 x y hx hy =>
    have hrs1 := setBr_br_eq_none_iff (by simp [hx] : s.br rs1 ≠ none) y
    exact .inl ((setBr_br_eq_none_iff ((hrs1 rd).not.2 (by simp [hy])) x r).trans (hrs1 r))
  | fib hd hq => exact .inl (setBr_br_eq_none_iff (by simp [hd]) _ r)
  | _ => exact .inl Iff.rfl

/-! ### The effect of a step -/

/-- `StepEffect s t`: `t` is what one step that answers makes of `s`, by the event it takes off the list. -/
inductive StepEffect (s : State) : State → Prop where
  /-- A host read (R59). -/
  | read {off : Nat} : StepEffect s (s.popped.serveRead off)
  /-- A host write (R53). -/
  | write {a : HostAccess} {v : Word} {es : List Event} {t : State} (hi : s.input = .access a :: es)
      (hk : a.kind = .write v) (hw : WriteEffect s.popped a.offset v t) : StepEffect s t
  /-- The completion of the command in flight (R226). -/
  | completed {t : State} (hc : s.completesNext) (he : Completed s.popped t) : StepEffect s t
  /-- A completion with no command in flight (log 14). -/
  | passed : StepEffect s s.popped
  /-- Reset (R220). -/
  | reset {es : List Event} (hi : s.input = .reset :: es) : StepEffect s s.popped.assertReset

theorem popped_of_nil {s : State} (h : s.input = []) : s.popped = s := by
  unfold State.popped
  rw [h, List.tail_nil, ← h]

theorem popped_of_cons {s : State} {e : Event} {es : List Event} (h : s.input = e :: es) :
    s.popped = { s with input := es } := by
  unfold State.popped
  rw [h, List.tail_cons]

/-- All that a step which answers a next state can do. -/
theorem step_effect {s t : State} (h : step s = .next t) : StepEffect s t := by
  rcases step_cases h with ⟨hi, hb, hr⟩ | ⟨e, es, hi, hserved⟩
  · exact .completed ⟨hb, .inl hi⟩ (by rw [popped_of_nil hi]; exact runLatched_completed hr)
  · rw [← popped_of_cons hi] at hserved
    rcases hserved with
      ⟨a, rfl, -, -, ⟨-, rfl⟩ | ⟨v, hk, rfl⟩⟩ | ⟨rfl, hb, hr⟩ | ⟨-, -, rfl⟩ | ⟨rfl, rfl⟩
    · exact .read
    · exact .write hi hk (serveWrite_effect _ _ _)
    · exact .completed ⟨hb, .inr ⟨es, hi⟩⟩ (runLatched_completed hr)
    · exact .passed
    · exact .reset hi

/-- A completion sets DONE, with a fault or without (R202, R226). -/
theorem Completed.done {s t : State} (h : Completed s t) : t.status.done = true := by
  obtain ⟨i, u, -, rfl⟩ | ⟨e, rfl⟩ := h <;> rfl

/-- A completion keeps OVR, and SERR or sets it (R202). -/
theorem Completed.sticky {s t : State} (h : Completed s t) :
    (s.status.serr = true → t.status.serr = true) ∧ (s.status.ovr = true → t.status.ovr = true) := by
  obtain ⟨i, u, hu, rfl⟩ | ⟨e, rfl⟩ := h
  · obtain ⟨hserr, hovr⟩ := hu.sticky_eq
    exact ⟨hserr.trans, hovr.trans⟩
  · exact ⟨fun _ => rfl, id⟩

/-- A host write keeps SERR and OVR, but for CTRL with bit 0 = 1 (R36). -/
theorem WriteEffect.sticky {s t : State} {off : Nat} {v : Word} (h : WriteEffect s off v t)
    (hctrl : off = 0x014 → v.getLsbD 0 = false) :
    (s.status.serr = true → t.status.serr = true) ∧ (s.status.ovr = true → t.status.ovr = true) := by
  cases h with
  | dropped => exact ⟨id, fun _ => rfl⟩
  | cleared hoff hv => exact absurd (hv.symm.trans (hctrl hoff)) (by decide)
  | _ => exact ⟨id, id⟩

/-- No host write clears BUSY (R36, R225, R227). -/
theorem WriteEffect.busy {s t : State} {off : Nat} {v : Word} (h : WriteEffect s off v t)
    (hb : s.status.busy = true) : t.status.busy = true := by
  cases h with
  | issued => rfl
  | _ => exact hb

end Sys2Proof.Machine

open Sys2Proof Sys2Proof.Machine

/-- Settles O51, by the one effect each command ends with. -/
theorem frameOfInterfaceRegisters : Obligations.FrameOfInterfaceRegisters := by
  intro i s t h
  obtain ⟨u, hu, rfl⟩ | ⟨e, rfl⟩ := exec_ended h
  · exact ⟨hu.data_eq, hu.interface_eq⟩
  · exact ⟨fun _ => rfl, rfl, rfl, rfl, rfl, rfl⟩

/-- Settles O52: a conversion leaves DEC_BUF in canonical form, so neither memory lists an index from
MAXD on. -/
theorem frameOfDecimalOutput : Obligations.FrameOfDecimalOutput := by
  intro i s t hwf h
  obtain ⟨u, hu, rfl⟩ | ⟨e, rfl⟩ := exec_ended h
  · refine ⟨fun hi => ?_, fun _ n hn => ?_, hu.seq_eq⟩
    · obtain ⟨hlen, hbuf⟩ := hu.decimal_eq hi
      exact ⟨hlen, fun n => congrArg (Memory.read · n) hbuf⟩
    · exact (read_beyond_of_wf (hu.decBuf_wf hwf) hn).trans (read_beyond_of_wf hwf hn).symm
  · exact ⟨fun _ => ⟨rfl, fun _ => rfl⟩, fun _ _ _ => rfl, fun _ => rfl⟩

/-- Settles O53: an effect writes CMPRES only for CMP, completion with it leaves ERR 0, and a fault keeps
all of STATUS that the statement names. -/
theorem frameOfStatus : Obligations.FrameOfStatus := by
  intro i s t h
  obtain ⟨u, hu, rfl⟩ | ⟨e, rfl⟩ := exec_ended h
  · obtain ⟨hserr, hovr⟩ := hu.sticky_eq
    refine ⟨hovr, ?_, fun _ => hserr⟩
    rintro (hi | herr)
    · exact hu.cmpres_eq hi
    · cases herr
  · exact ⟨rfl, fun _ => rfl, (nomatch ·)⟩

/-- Settles O54: every other effect writes only registers that its check found valid. -/
theorem onlyAllocAndFreeChangeValidity : Obligations.OnlyAllocAndFreeChangeValidity := by
  intro i s t r h
  obtain ⟨u, hu, rfl⟩ | ⟨e, rfl⟩ := exec_ended h
  · rcases hu.validity r with hkept | ⟨rfl, hr⟩ | ⟨rfl, hr⟩
    · exact ⟨fun ⟨hs, ht⟩ => absurd (hkept.2 hs) ht, fun ⟨hs, ht⟩ => absurd (hkept.1 ht) hs⟩
    · exact ⟨fun _ => rfl, fun ⟨_, ht⟩ => absurd ht hr⟩
    · exact ⟨fun ⟨_, ht⟩ => absurd hr ht, fun _ => rfl⟩
  · exact ⟨fun ⟨hs, ht⟩ => absurd hs ht, fun ⟨hs, ht⟩ => absurd ht hs⟩

/-- Settles O56, by the event the step serves. -/
theorem stickyBitsStay : Obligations.StickyBitsStay := by
  intro s t h hreset hctrl
  cases step_effect h with
  | read => exact ⟨id, id⟩
  | write hi hk hw => exact hw.sticky fun hoff => hctrl _ _ _ hi hoff hk
  | completed hc he => exact he.sticky
  | passed => exact ⟨id, id⟩
  | reset hi => exact absurd hi (hreset _)

/-- Settles O57, by the event the step serves. -/
theorem onlyCompletionAndResetClearBusy : Obligations.OnlyCompletionAndResetClearBusy := by
  intro s t h hb ht
  cases step_effect h with
  | read => exact absurd (hb.symm.trans ht) (by decide)
  | write hi hk hw => exact absurd ((hw.busy hb).symm.trans ht) (by decide)
  | completed hc he => exact .inl ⟨hc, he.done⟩
  | passed => exact absurd (hb.symm.trans ht) (by decide)
  | reset hi => exact .inr ⟨_, hi⟩
end

section
/-! PROOFS. State (10_state.md): the invariant of the machine, one rule per operation on the state, and from
these reset and the step. -/

namespace Sys2Proof.Machine

/-! ### STATUS fields stay consistent -/

theorem Status.issue_consistent (st : Status) : st.issue.Consistent :=
  ⟨fun _ => ⟨rfl, rfl, rfl⟩, rfl, (nomatch ·)⟩

theorem Status.finish_consistent (st : Status) : st.finish.Consistent :=
  ⟨(nomatch ·), rfl, fun _ => rfl⟩

theorem Status.fault_consistent (st : Status) (e : CmdFault) : (Status.fault e st).Consistent :=
  ⟨(nomatch ·), rfl, fun _ => rfl⟩

/-! ### The invariant, by operation -/

/-- Another STATUS with consistent fields. -/
theorem State.Inv.withStatus {s : State} (h : s.Inv) {st : Status} (hst : st.Consistent) :
    State.Inv { s with status := st } :=
  ⟨h.regs, hst, h.memory, h.dec, h.seq⟩

theorem State.Inv.finish {s : State} (h : s.Inv) : s.finish.Inv := h.withStatus s.status.finish_consistent

theorem State.Inv.takeFault {s : State} (h : s.Inv) (e : CmdFault) : (s.takeFault e).Inv :=
  h.withStatus (s.status.fault_consistent e)

theorem State.Inv.setBr {s : State} (h : s.Inv) (r : RegId) {x : BigInt} (hx : x.Norm) :
    (s.setBr r x).Inv := by
  refine ⟨fun q y hy => ?_, h.status, h.memory, h.dec, h.seq⟩
  rw [br_setBr] at hy
  split at hy
  · exact Option.some.inj hy ▸ hx
  · exact h.regs q y hy

theorem State.Inv.invalidate {s : State} (h : s.Inv) (r : RegId) : (s.invalidate r).Inv := by
  refine ⟨fun q y hy => ?_, h.status, h.memory, h.dec, h.seq⟩
  rw [br_invalidate] at hy
  split at hy
  · cases hy
  · exact h.regs q y hy

/-- The claim on the decimal output is about DEC_BUF and DEC_LEN only. -/
theorem decConsistent_congr {s t : State} (hbuf : t.decBuf = s.decBuf) (hlen : t.decLen = s.decLen) :
    t.DecConsistent ↔ s.DecConsistent := by
  simp only [State.DecConsistent, hbuf, hlen]

/-- The string of a normalized register fills DEC_BUF consistently with DEC_LEN (R173, R174). -/
theorem writeDec_decConsistent (s : State) {x : BigInt} (hx : x.Norm) :
    (s.writeDec (dec x)).DecConsistent := by
  have hle := dec_length_le hx
  have hlen : (s.writeDec (dec x)).decLen.toNat = (dec x).length := by
    rw [writeDec_decLen, BitVec.toNat_ofNat]
    exact Nat.mod_eq_of_lt (by omega)
  refine .inr ⟨fun n hn => by rw [read_writeDec s _ hn]; rfl, ?_, ?_, fun n hge hn => ?_⟩
  · exact hlen ▸ one_le_dec_length hx
  · exact hlen ▸ hle.trans (by decide)
  · rw [read_writeDec s _ hn, List.getD_eq_default _ _ (hlen ▸ hge)]

theorem State.Inv.writeDec {s : State} (h : s.Inv) {x : BigInt} (hx : x.Norm) :
    (s.writeDec (Machine.dec x)).Inv :=
  ⟨h.regs, h.status, wf_writeDec s _, writeDec_decConsistent s hx, h.seq⟩

/-- RENDER with normalized working registers (R39, R185). -/
theorem State.Inv.render {s : State} (h : s.Inv) (rd : RegId) {q : Sequencer} (hq : q.Normal) :
    (s.render rd q).Inv := by
  obtain ⟨hregs, hstatus, -, hdec, -⟩ := (h.setBr rd hq.1).writeDec hq.1
  exact ⟨hregs, hstatus, wf_decCells _, (decConsistent_congr (render_decBuf s rd q) rfl).2 hdec, rfl, hq⟩

/-- Another command word latched, with the STATUS of an issue (R225). -/
theorem State.Inv.issue {s : State} (h : s.Inv) (c : Word) : (s.issue c).Inv :=
  ⟨h.regs, s.status.issue_consistent, h.memory, h.dec, h.seq⟩

theorem State.Inv.popped {s : State} (h : s.Inv) : s.popped.Inv :=
  ⟨h.regs, h.status, h.memory, h.dec, h.seq⟩

theorem State.Inv.serveRead {s : State} (h : s.Inv) (off : Nat) : (s.serveRead off).Inv :=
  ⟨h.regs, h.status, h.memory, h.dec, h.seq⟩

/-- +0 is normalized (R22). -/
theorem zero_norm : BigInt.zero.Norm := by decide

/-- Reset: no register valid, nothing converted, the sequencer IDLE over +0 (R45, log 2). -/
theorem reset_inv : State.reset.Inv where
  regs r x hx := by rw [br_reset] at hx; cases hx
  status := by decide
  memory := wf_nil
  dec := .inl ⟨rfl, rfl⟩
  seq := ⟨rfl, zero_norm, zero_norm, zero_norm, zero_norm, zero_norm, zero_norm, zero_norm, zero_norm⟩

theorem assertReset_inv (s : State) : s.assertReset.Inv :=
  ⟨reset_inv.regs, reset_inv.status, reset_inv.memory, reset_inv.dec, reset_inv.seq⟩

/-! ### The invariant, by effect -/

/-- Every effect of a command keeps the invariant, and with it the completion does. -/
theorem Effect.inv {s u : State} {i : Instr} (h : Effect s i u) (hs : s.Inv) : u.Inv := by
  cases h with
  | nothing => exact hs
  | alloc => exact hs.setBr _ (mkBig_word_norm s.data)
  | free hd => exact hs.invalidate _
  | write hd hx => exact hs.setBr _ (hx hs.regs)
  | exchange hx hy => exact (hs.setBr _ (hs.regs _ _ hy)).setBr _ (hs.regs _ _ hx)
  | answer hi => exact ⟨hs.regs, hs.status, hs.memory, hs.dec, hs.seq⟩
  | compare => exact hs.withStatus hs.status
  | todec hx => exact hs.writeDec (hs.regs _ _ hx)
  | fib hd hq => exact hs.render _ (run_keeps hs.seq.2 hq)

theorem Completed.inv {s t : State} (h : Completed s t) (hs : s.Inv) : t.Inv := by
  obtain ⟨i, u, hu, rfl⟩ | ⟨e, rfl⟩ := h
  · exact (hu.inv hs).finish
  · exact hs.takeFault e

/-- Every host write keeps the invariant: it writes DATA, KARG, the latch or STATUS only. -/
theorem WriteEffect.inv {s t : State} {off : Nat} {v : Word} (h : WriteEffect s off v t) (hs : s.Inv) :
    t.Inv := by
  cases h with
  | ignored => exact hs
  | dropped => exact hs.withStatus hs.status
  | issued => exact hs.issue v
  | data => exact ⟨hs.regs, hs.status, hs.memory, hs.dec, hs.seq⟩
  | karg => exact ⟨hs.regs, hs.status, hs.memory, hs.dec, hs.seq⟩
  | cleared hoff hv => exact hs.withStatus hs.status

end Sys2Proof.Machine

open Sys2Proof Sys2Proof.Machine

/-- Settles O59, by the event the step serves. -/
theorem stepKeepsInvariant : Obligations.StepKeepsInvariant := by
  intro s t hs h
  cases step_effect h with
  | read => exact hs.popped.serveRead _
  | write hi hk hw => exact hw.inv hs.popped
  | completed hc he => exact he.inv hs.popped
  | passed => exact hs.popped
  | reset hi => exact assertReset_inv _

/-- Settles O58: each clause is a reset value of R45, or for the working registers of log 2. -/
theorem resetSatisfiesInvariant : Obligations.ResetSatisfiesInvariant := reset_inv
end

section
/-! PROOFS. State (10_state.md): the registers of the host window, the STATUS word and reset. -/

namespace Sys2Proof.Machine

/-! ### Fields of words -/

/-- Byte lane `n` of a DEC window word is byte `m + n` (R55, R56). -/
theorem extractLsb'_decWord (s : State) (m : Nat) {n : Nat} (hn : n < 4) :
    (s.decWord m).extractLsb' (8 * n) 8 = s.decByte (m + n) := by
  unfold State.decWord
  simp only [BitVec.extractLsb'_append_eq_ite]
  interval_cases n <;> simp

theorem decByte_written {s : State} {n : Nat} {b : Byte} (hn : n < Config.MAXD)
    (h : s.decBuf.read n = some b) : s.decByte n = b := by
  simp [State.decByte, hn, h]

theorem decByte_unwritten {s : State} {n : Nat} (hn : n < Config.MAXD) (h : s.decBuf.read n = none) :
    s.decByte n = Config.freeByte (4 * s.draws + n % 4) := by
  simp [State.decByte, hn, h]

theorem decByte_beyond {s : State} {n : Nat} (hn : Config.MAXD ≤ n) : s.decByte n = 0 :=
  if_neg (Nat.not_lt.2 hn)

/-! ### Reads of the window (R53) -/

theorem whenIdle_of_idle {s : State} (hb : s.status.busy = false) (v : Word) : s.whenIdle v = v := by
  simp [State.whenIdle, hb]

/-- A read of the DEC window while idle (R55). -/
theorem readValue_decWindow {s : State} (hb : s.status.busy = false) (m : Nat) :
    s.readValue (0x400 + m) = s.decWord m := by
  unfold State.readValue
  iterate 6 rw [if_neg (by omega)]
  rw [if_pos (by omega), whenIdle_of_idle hb, Nat.add_sub_cancel_left]

/-! ### Writes of the window (R53) -/

theorem serveWrite_data_of_idle {s : State} (hb : s.status.busy = false) (v : Word) :
    s.serveWrite 0x008 v = { s with data := v } := by
  simp [State.serveWrite, State.unlessBusy, hb]

theorem serveWrite_karg_of_idle {s : State} (hb : s.status.busy = false) (v : Word) :
    s.serveWrite 0x00C v = { s with karg := v } := by
  simp [State.serveWrite, State.unlessBusy, hb]

/-- A write of CTRL, busy or not, by bit 0 (R36). -/
theorem serveWrite_ctrl (s : State) (v : Word) :
    s.serveWrite 0x014 v = if v.getLsbD 0 then { s with status := s.status.clearSticky } else s := rfl

/-! ### STATUS (R27) -/

theorem extractLsb'_word_cmpres (st : Status) : st.word.extractLsb' 8 2 = st.cmpres.code := by
  simp only [Status.word, BitVec.extractLsb'_append_eq_ite]
  simp

theorem extractLsb'_word_errcode (st : Status) : st.word.extractLsb' 12 4 = errcodeBits st.errcode := by
  simp only [Status.word, BitVec.extractLsb'_append_eq_ite]
  simp

/-- The reserved bits 7:5, 11:10 and 31:16 read 0. -/
theorem extractLsb'_word_reserved (st : Status) :
    st.word.extractLsb' 5 3 = 0 ∧ st.word.extractLsb' 10 2 = 0 ∧ st.word.extractLsb' 16 16 = 0 := by
  simp only [Status.word, BitVec.extractLsb'_append_eq_ite]
  simp

/-- The five flags of bits 4:0. -/
theorem getLsbD_word_flags (st : Status) :
    st.word.getLsbD 0 = st.busy ∧ st.word.getLsbD 1 = st.done ∧ st.word.getLsbD 2 = st.err ∧
      st.word.getLsbD 3 = st.ovr ∧ st.word.getLsbD 4 = st.serr := by
  simp only [Status.word, BitVec.getLsbD_append]
  simp

end Sys2Proof.Machine

open Sys2Proof Sys2Proof.Machine

/-- Settles O15: lane `n` of the word at `0x400 + 4*j` is byte `4*j + n`, in each of its three cases. -/
theorem decWindowPacksCharacters : Obligations.DecWindowPacksCharacters := by
  intro s es j hb hj hi
  refine ⟨s.decWord (4 * j), ?_, fun n hn => ?_⟩
  · have hv : ({ s with input := es } : State).readValue (0x400 + 4 * j) = s.decWord (4 * j) :=
      readValue_decWindow hb (4 * j)
    rw [step_hostRead (by unfold Config.WINDOW; omega) (by omega) hi, State.serveRead, hv]
  · rw [extractLsb'_decWord s (4 * j) hn]
    refine ⟨fun b hlt hread => decByte_written hlt hread, fun hlt hread => ?_, decByte_beyond⟩
    rw [decByte_unwritten hlt hread, Nat.mul_add_mod, Nat.mod_eq_of_lt hn]

/-- Settles O9: both offsets are served, and with BUSY 0 nothing is dropped. -/
theorem writesOfDataAndKarg : Obligations.WritesOfDataAndKarg := by
  intro s v es hb
  refine ⟨fun hi => ?_, fun hi => ?_⟩
  · rw [step_hostWrite (by decide) (by decide) hi, serveWrite_data_of_idle]
    exact hb
  · rw [step_hostWrite (by decide) (by decide) hi, serveWrite_karg_of_idle]
    exact hb

/-- Settles O10, by bit 0 of the value written. -/
theorem ctrlClearsTheStickyBits : Obligations.CtrlClearsTheStickyBits := by
  intro s es
  refine ⟨fun v hi hv => ?_, fun v hi hv => ?_, step_hostRead (by decide) (by decide)⟩
  · rw [step_hostWrite (by decide) (by decide) hi, serveWrite_ctrl, if_pos hv]
    rfl
  · rw [step_hostWrite (by decide) (by decide) hi, serveWrite_ctrl, hv, if_neg Bool.false_ne_true]

/-- Settles O13: the reads are of constants, and no write offset is 0x018 or 0x01C. -/
theorem infoRegistersAreConstant : Obligations.InfoRegistersAreConstant := by
  intro s es
  refine ⟨step_hostRead (by decide) (by decide), step_hostRead (by decide) (by decide), ?_⟩
  rintro v (hi | hi)
  · exact step_hostWrite (by decide) (by decide) hi
  · exact step_hostWrite (by decide) (by decide) hi

/-- Settles O18: a reset event is served from any state, and gives what `State.reset` holds. -/
theorem resetGivesTheResetValues : Obligations.ResetGivesTheResetValues := by
  have hword : State.reset.status.word = 0 := by decide
  exact ⟨⟨br_reset, hword, rfl, rfl, rfl, rfl⟩, fun s es hi =>
    ⟨_, step_event hi, rfl, br_reset, hword, rfl, rfl, rfl, rfl⟩⟩

/-- Settles O55: by the layout of the word, and the codes of CMPRES and ERRCODE. -/
theorem statusWordLayout : Obligations.StatusWordLayout := by
  intro st
  obtain ⟨hbusy, hdone, herr, hovr, hserr⟩ := getLsbD_word_flags st
  obtain ⟨h5, h10, h16⟩ := extractLsb'_word_reserved st
  refine ⟨hbusy, hdone, herr, hovr, hserr, h5, h10, h16, ?_, ?_⟩
  · rw [extractLsb'_word_cmpres]
    cases st.cmpres <;> rfl
  · rw [extractLsb'_word_errcode]
    rcases st.errcode with _ | _ | _ | _ <;> rfl
end

section
/-! PROOFS. State (10_state.md): the hidden state cannot be observed. A FIB gives the same FK from whatever
the sequencer's registers held, and no other command and no host access reads them. -/

namespace Sys2Proof.Machine

/-! ### What a FIB run reads of the sequencer (R181 to R185) -/

/-- An iteration reads the control state, FK and FK1 only, and writes every other working register. -/
theorem iteration_congr {k : Nat} {q p : Sequencer} (hfsm : p.fsm = q.fsm) (hi : p.i = q.i)
    (hfk : p.fk = q.fk) (hfk1 : p.fk1 = q.fk1) : p.iteration k = q.iteration k := by
  have hbody : p.body = q.body := by
    simp only [Sequencer.body, hfsm, hi, hfk, hfk1]
  rw [Sequencer.iteration, Sequencer.iteration, hbody, hi]

/-- In ITER the first of several arrows is an iteration. -/
theorem iterate_succ_of_iter {k n : Nat} {q : Sequencer} (h : q.fsm = .iter) :
    q.iterate k (n + 1) = q.iteration k >>= Sequencer.iterate k n := by
  rw [Sequencer.iterate, h]

/-- In RENDER no iteration is left. -/
theorem iterate_succ_of_render {k n : Nat} {q : Sequencer} (h : q.fsm = .render) :
    q.iterate k (n + 1) = .ok q := by
  rw [Sequencer.iterate, h]

theorem start_of_le_two {k : Nat} (hk : k ≤ 2) (q : Sequencer) :
    q.start k = { q with fsm := .render, fk := mkBig false (if k = 0 then 0 else 1) } :=
  if_pos hk

theorem start_of_two_lt {k : Nat} (hk : 2 < k) (q : Sequencer) :
    q.start k =
      { q with fsm := .iter, i := Fin.ofNat 32 (bl k - 2), fk := mkBig false 1, fk1 := mkBig false 1 } :=
  if_neg (Nat.not_le.2 hk)

/-- For `k <= 2` the run is the arrow to RENDER alone (R181). -/
theorem run_of_le_two {k : Nat} (hk : k ≤ 2) (q : Sequencer) : q.run k = .ok (q.start k) :=
  iterate_succ_of_render (n := 30) (by rw [start_of_le_two hk])

/-- For `k > 2` the run does not depend on the registers it starts from (R182). -/
theorem run_of_two_lt {k : Nat} (hk : 2 < k) (q p : Sequencer) : p.run k = q.run k := by
  have hrun : ∀ r : Sequencer, r.run k = (r.start k).iteration k >>= Sequencer.iterate k 30 :=
    fun r => iterate_succ_of_iter (by rw [start_of_two_lt hk])
  have hstart : (p.start k).iteration k = (q.start k).iteration k := by
    rw [start_of_two_lt hk, start_of_two_lt hk]
    exact iteration_congr rfl rfl rfl rfl
  rw [hrun, hrun, hstart]

/-! ### Effects from states that differ in the hidden state -/

/-- The state with other sequencer registers and another latched word. -/
def State.withHidden (s : State) (q : Sequencer) (c : Word) : State := { s with seq := q, latch := c }

/-- A state that differs at most in the hidden state is the same state with other hidden contents. -/
theorem State.SameButHidden.eq_withHidden {s t : State} (h : s.SameButHidden t) :
    ∃ q c, t = s.withHidden q c ∧ (s.status.busy = true → c = s.latch) :=
  ⟨t.seq, t.latch, h⟩

/-- Effects that fault alike, or succeed and differ at most in the sequencer and the latch. -/
def SameEffects : Except CmdFault State → Except CmdFault State → Prop
  | .ok u, .ok v => v = u.withHidden v.seq v.latch
  | .error e, .error f => e = f
  | _, _ => False

theorem SameEffects.ok {u v : State} (h : v = u.withHidden v.seq v.latch) :
    SameEffects (.ok u) (.ok v) := h

/-- The same check or computation comes first in both. -/
theorem SameEffects.bind {α : Type} {m : Except CmdFault α} {f g : α → Except CmdFault State}
    (h : ∀ a, SameEffects (f a) (g a)) : SameEffects (m >>= f) (m >>= g) := by
  cases m with
  | error e => exact rfl
  | ok a => exact h a

/-- Completion clears BUSY, so afterwards the latch is hidden state too (R41). -/
theorem SameEffects.complete {s : State} {q : Sequencer} {c : Word} {r r' : Except CmdFault State}
    (h : SameEffects r r') : SameOutcomeButHidden (s.complete r) ((s.withHidden q c).complete r') := by
  cases r with
  | error e =>
    cases r' with
    | error f => cases h; exact ⟨rfl, (nomatch ·)⟩
    | ok v => cases h
  | ok u =>
    cases r' with
    | error f => cases h
    | ok v => exact ⟨congrArg State.finish h, (nomatch ·)⟩

/-- SHL writes its destination, or nothing where the amount is 0 (R160). -/
theorem SameEffects.shift (s : State) (q : Sequencer) (c : Word) (rd : RegId) (x : BigInt) (shamt : Nat) :
    SameEffects (if shamt = 0 then pure s else shl x shamt >>= fun y => pure (s.setBr rd y))
      (if shamt = 0 then pure (s.withHidden q c)
        else shl x shamt >>= fun y => pure ((s.withHidden q c).setBr rd y)) := by
  split
  · exact .ok rfl
  · exact .bind fun _ => .ok rfl

/-- FIB: the run gives the same FK, or faults alike, whatever the registers it starts from (R182). -/
theorem SameEffects.fib (s : State) (q : Sequencer) (c : Word) (rd : RegId) (k : Nat) :
    SameEffects (s.seq.run k >>= fun w => pure (s.render rd w))
      (q.run k >>= fun w => pure ((s.withHidden q c).render rd w)) := by
  rcases Nat.lt_or_ge 2 k with hk | hk
  · rw [run_of_two_lt hk s.seq q]
    exact .bind fun _ => .ok rfl
  · rw [run_of_le_two hk, run_of_le_two hk, start_of_le_two hk, start_of_le_two hk]
    exact .ok rfl

/-- No command but FIB reads the sequencer, none reads the latch, and FIB's result depends on neither. -/
theorem exec_withHidden (i : Instr) (s : State) (q : Sequencer) (c : Word) :
    SameOutcomeButHidden (exec i s) (exec i (s.withHidden q c)) := by
  cases i with
  | nop | alloc rd | rdhdr rs1 => exact SameEffects.complete (s := s) (q := q) (c := c) (.ok rfl)
  | free rd | rdw rs1 imm16 | bitlen rs1 | todec rs1 => exact SameEffects.complete (.bind fun _ => .ok rfl)
  | copy rd rs1 | swap rd rs1 | pushw rd | cmp rs1 rs2 | neg rd rs1 =>
    exact SameEffects.complete (.bind fun _ => .bind fun _ => .ok rfl)
  | add rd rs1 rs2 | sub rd rs1 rs2 | addm rd rs1 rs2 | subm rd rs1 rs2 | mul rd rs1 rs2 =>
    exact SameEffects.complete (.bind fun _ => .bind fun _ => .bind fun _ => .bind fun _ => .ok rfl)
  | shl rd rs1 shamt => exact SameEffects.complete (.bind fun x => .bind fun _ => .shift s q c rd x shamt)
  | fib rd => exact SameEffects.complete (.bind fun _ => .fib s q c rd s.karg.toNat)

/-! ### Steps from states that differ in the hidden state -/

/-- The latch is read only while BUSY, when it is not hidden (R41). -/
theorem State.SameButHidden.runsLatched {s t : State} (h : s.SameButHidden t) (hb : s.status.busy = true) :
    SameOutcomeButHidden (runLatched s) (runLatched t) := by
  obtain ⟨q, c, rfl, hc⟩ := h.eq_withHidden
  cases hd : decode s.latch with
  | ok i =>
    rw [runLatched_ok hd, runLatched_ok (s := s.withHidden q c) (hc hb ▸ hd)]
    exact exec_withHidden i s q c
  | error e =>
    rw [runLatched_error hd, runLatched_error (s := s.withHidden q c) (hc hb ▸ hd)]
    exact ⟨rfl, (nomatch ·)⟩

/-- A write dropped while BUSY, or with its effect while idle, from both (R227). -/
theorem State.SameButHidden.unlessBusy {s t u v : State} (h : s.SameButHidden t) (huv : u.SameButHidden v) :
    (s.unlessBusy u).SameButHidden (t.unlessBusy v) := by
  obtain ⟨q, c, rfl, hc⟩ := h.eq_withHidden
  cases hb : s.status.busy with
  | true => simpa [State.unlessBusy, State.withHidden, hb] using ⟨rfl, hc⟩
  | false => simpa [State.unlessBusy, State.withHidden, hb] using huv

/-- A CTRL write reads and writes STATUS only (R36). -/
theorem State.SameButHidden.writeCtrl {s t : State} (h : s.SameButHidden t) (v : Word) :
    (s.writeCtrl v).SameButHidden (t.writeCtrl v) := by
  obtain ⟨q, c, rfl, hc⟩ := h.eq_withHidden
  unfold State.writeCtrl
  split
  · exact ⟨rfl, hc⟩
  · exact ⟨rfl, hc⟩

/-- A host write reads neither the latch nor the sequencer; an issue latches the same word in both. -/
theorem State.SameButHidden.serveWrite {s t : State} (h : s.SameButHidden t) (off : Nat) (v : Word) :
    (s.serveWrite off v).SameButHidden (t.serveWrite off v) := by
  obtain ⟨q, c, rfl, hc⟩ := h.eq_withHidden
  unfold State.serveWrite
  split_ifs
  · exact h.unlessBusy ⟨rfl, fun _ => rfl⟩
  · exact h.unlessBusy ⟨rfl, hc⟩
  · exact h.unlessBusy ⟨rfl, hc⟩
  · exact h.writeCtrl v
  · exact h

/-- A host read returns the same value from both: no offset reads the latch or the sequencer (R53). -/
theorem State.SameButHidden.serveRead {s t : State} (h : s.SameButHidden t) (off : Nat) :
    (s.serveRead off).SameButHidden (t.serveRead off) := by
  obtain ⟨q, c, rfl, hc⟩ := h.eq_withHidden
  exact ⟨rfl, hc⟩

/-- The same access is served from both, or refused from both (R58). -/
theorem State.SameButHidden.serveAccess {s t : State} (h : s.SameButHidden t) (a : HostAccess) :
    SameOutcomeButHidden (s.serveAccess a) (t.serveAccess a) := by
  unfold State.serveAccess
  split
  · exact rfl
  · split
    · exact rfl
    · split
      · exact h.serveRead a.offset
      · next v _ => exact h.serveWrite a.offset v

theorem State.SameButHidden.serve {s t : State} (h : s.SameButHidden t) (e : Event) :
    SameOutcomeButHidden (s.serve e) (t.serve e) := by
  cases e with
  | access a => exact h.serveAccess a
  | complete =>
    obtain ⟨q, c, rfl, hc⟩ := h.eq_withHidden
    show SameOutcomeButHidden (if s.status.busy then runLatched s else .next s)
      (if s.status.busy then runLatched (s.withHidden q c) else .next (s.withHidden q c))
    split
    · next hb => exact h.runsLatched hb
    · exact h
  | reset =>
    obtain ⟨q, c, rfl, hc⟩ := h.eq_withHidden
    exact ⟨rfl, fun _ => rfl⟩
  | accessDuringReset a => exact rfl

end Sys2Proof.Machine

open Sys2Proof Sys2Proof.Machine

/-- Settles O60, by what comes next, which is the same from both states. -/
theorem hiddenStateIsUnobservable : Obligations.HiddenStateIsUnobservable := by
  intro s t h
  obtain ⟨q, c, rfl, hc⟩ := h.eq_withHidden
  cases hi : s.input with
  | nil =>
    cases hb : s.status.busy with
    | true =>
      rw [step_no_event_busy hi hb, step_no_event_busy (s := s.withHidden q c) hi hb]
      exact h.runsLatched hb
    | false =>
      rw [step_no_event_idle hi hb, step_no_event_idle (s := s.withHidden q c) hi hb]
      exact rfl
  | cons e es =>
    rw [step_event hi, step_event (s := s.withHidden q c) hi]
    exact State.SameButHidden.serve ⟨rfl, hc⟩ e
end

section
/-! PROOFS. Memory (20_memory.md): what an access to the host window returns, ignores and leaves unchanged,
and which accesses are refused. -/

namespace Sys2Proof.Machine

/-! ### What a read returns (R53, R54) -/

/-- The step that serves a read, by the value the offset holds. -/
theorem step_hostRead_of_readValue {s : State} {es : List Event} {off : Nat} {v : Word}
    (h : off < Config.WINDOW) (ha : off % 4 = 0) (hi : s.input = hostRead off :: es)
    (hv : s.readValue off = v) :
    step s = .next { s with input := es, readLog := v :: s.readLog, draws := s.draws + 1 } := by
  subst hv
  exact step_hostRead h ha hi

theorem readValue_data_of_idle {s : State} (hb : s.status.busy = false) : s.readValue 0x008 = s.data :=
  whenIdle_of_idle hb s.data

theorem readValue_decLen_of_idle {s : State} (hb : s.status.busy = false) : s.readValue 0x010 = s.decLen :=
  whenIdle_of_idle hb s.decLen

/-- A reserved offset lies past INFO2 and below the DEC window. -/
theorem readValue_reserved (s : State) {off : Nat} (hlo : 0x020 ≤ off) (hhi : off ≤ 0x3FF) :
    s.readValue off = 0 := by
  unfold State.readValue
  iterate 7 rw [if_neg (by omega)]

/-! ### What a write ignores (R54) -/

/-- CTRL is the last offset that takes a write. -/
theorem serveWrite_reserved (s : State) (v : Word) {off : Nat} (hlo : 0x020 ≤ off) :
    s.serveWrite off v = s := by
  unfold State.serveWrite
  iterate 4 rw [if_neg (by omega)]

/-! ### Which accesses are refused (R58) -/

theorem serveAccess_narrow (s : State) {a : HostAccess} (h : a.width ≠ .w32) :
    s.serveAccess a = .refused .narrowAccess :=
  if_pos h

/-- The window's size is a multiple of 4, so the offset is aligned as the address is. -/
theorem offset_mod_four (a : HostAccess) : a.offset % 4 = a.addr % 4 :=
  Nat.mod_mod_of_dvd _ (by decide)

theorem serveAccess_misaligned (s : State) {a : HostAccess} (hw : a.width = .w32) (h : a.addr % 4 ≠ 0) :
    s.serveAccess a = .refused .misalignedAccess := by
  rw [← offset_mod_four] at h
  unfold State.serveAccess
  rw [if_neg (not_not_intro hw), if_pos h]

/-! ### What a read changes (R59) -/

/-- A read that is answered was served, at the offset of its address. -/
theorem eq_serveRead_of_step {s t : State} {a : HostAccess} {es : List Event}
    (hi : s.input = .access a :: es) (hk : a.kind = .read) (h : step s = .next t) :
    t = ({ s with input := es } : State).serveRead a.offset := by
  rcases step_cases h with ⟨hnil, -, -⟩ | ⟨e, rest, hcons, hserved⟩
  · exact absurd (hi.symm.trans hnil) (List.cons_ne_nil _ _)
  · obtain ⟨rfl, rfl⟩ := List.cons.inj (hi.symm.trans hcons)
    obtain ⟨b, hab, -, -, hb⟩ := hserved.resolve_right (by simp)
    obtain rfl : a = b := Event.access.inj hab
    rcases hb with ⟨-, ht⟩ | ⟨v, hwrite, -⟩
    · exact ht
    · exact absurd (hk.symm.trans hwrite) (by simp)

end Sys2Proof.Machine

open Sys2Proof Sys2Proof.Machine

/-- Settles O11, register by register: only DATA and DEC_LEN need BUSY to be 0. -/
theorem readsWhileIdle : Obligations.ReadsWhileIdle := by
  rintro s es ⟨off, v⟩ hb hp hi
  simp only [List.mem_cons, List.not_mem_nil, or_false, Prod.mk.injEq] at hp
  obtain ⟨hwin, ha, hv⟩ : off < Config.WINDOW ∧ off % 4 = 0 ∧ s.readValue off = v := by
    rcases hp with ⟨rfl, rfl⟩ | ⟨rfl, rfl⟩ | ⟨rfl, rfl⟩ | ⟨rfl, rfl⟩ | ⟨rfl, rfl⟩ | ⟨rfl, rfl⟩
    · exact ⟨by decide, by decide, rfl⟩
    · exact ⟨by decide, by decide, rfl⟩
    · exact ⟨by decide, by decide, readValue_data_of_idle hb⟩
    · exact ⟨by decide, by decide, rfl⟩
    · exact ⟨by decide, by decide, readValue_decLen_of_idle hb⟩
    · exact ⟨by decide, by decide, rfl⟩
  exact step_hostRead_of_readValue hwin ha hi hv

/-- Settles O14: a reserved offset is served, and none of the offsets with a register or an effect. -/
theorem reservedOffsetsDoNothing : Obligations.ReservedOffsetsDoNothing := by
  intro s es off hlo hhi ha
  have hwin : off < Config.WINDOW := by unfold Config.WINDOW; omega
  refine ⟨fun hi => ?_, fun v hi => ?_⟩
  · exact step_hostRead_of_readValue hwin ha hi (readValue_reserved s hlo hhi)
  · rw [step_hostWrite hwin ha hi, serveWrite_reserved _ v hlo]

/-- Settles O16: the width is checked first, then the alignment, and an overlap with reset is an event
that is only refused. -/
theorem undefinedAccessesAreRefused : Obligations.UndefinedAccessesAreRefused := by
  refine ⟨fun s a es hi => ⟨fun hw => ?_, fun hw ha => ?_⟩, fun s a es hi => step_event hi⟩
  · exact (step_event hi).trans (serveAccess_narrow _ hw)
  · exact (step_event hi).trans (serveAccess_misaligned _ hw ha)

/-- Settles O17: the step served the read, and `State.serveRead` writes `readLog` and `draws` only. -/
theorem readsHaveNoSideEffects : Obligations.ReadsHaveNoSideEffects := by
  intro s t a es hi hk h
  rw [eq_serveRead_of_step hi hk h]
  rfl
end

section
/-! PROOFS. Encoding (30_encoding.md): the fields of a command word, the rows of the opcode map against the
encoder and against the must-be-zero bits, and the step that completes a latched word. -/

namespace Sys2Proof

open Sys2Proof.Laws Sys2Proof.Machine

/-! ### The fields an encoding carries (R71, R72)

Each field is found by passing over the parts below it, then over the parts above. The sums of widths
in the types have to stay as they are, so `simp` runs here without its arithmetic of sums. -/

section Fields

open BitVec (extractLsb'_append_eq_of_le extractLsb'_append_eq_of_add_le extractLsb'_eq_self toNat_ofNat)

variable (op : BitVec 8) (rd rs1 rs2 : RegId) (n : Nat)

theorem toFin_regField (r : RegId) : (regField r).toFin = r := rfl

@[simp] theorem rdOf_encodeD : rdOf (encodeD op rd) = rd := by
  simp (disch := decide) only [rdOf, encodeD, extractLsb'_append_eq_of_le,
    extractLsb'_append_eq_of_add_le, Nat.reduceSub, extractLsb'_eq_self, toFin_regField]

@[simp] theorem rs1Of_encodeS : rs1Of (encodeS op rs1) = rs1 := by
  simp (disch := decide) only [rs1Of, encodeS, extractLsb'_append_eq_of_le,
    extractLsb'_append_eq_of_add_le, Nat.reduceSub, extractLsb'_eq_self, toFin_regField]

@[simp] theorem fields_encodeDS :
    rdOf (encodeDS op rd rs1) = rd ∧ rs1Of (encodeDS op rd rs1) = rs1 := by
  simp (disch := decide) only [rdOf, rs1Of, encodeDS, extractLsb'_append_eq_of_le,
    extractLsb'_append_eq_of_add_le, Nat.reduceSub, extractLsb'_eq_self, toFin_regField, and_self]

@[simp] theorem fields_encodeSS :
    rs1Of (encodeSS op rs1 rs2) = rs1 ∧ rs2Of (encodeSS op rs1 rs2) = rs2 := by
  simp (disch := decide) only [rs1Of, rs2Of, encodeSS, extractLsb'_append_eq_of_le,
    extractLsb'_append_eq_of_add_le, Nat.reduceSub, extractLsb'_eq_self, toFin_regField, and_self]

@[simp] theorem fields_encodeR :
    rdOf (encodeR op rd rs1 rs2) = rd ∧ rs1Of (encodeR op rd rs1 rs2) = rs1 ∧
      rs2Of (encodeR op rd rs1 rs2) = rs2 := by
  simp (disch := decide) only [rdOf, rs1Of, rs2Of, encodeR, extractLsb'_append_eq_of_le,
    extractLsb'_append_eq_of_add_le, Nat.reduceSub, extractLsb'_eq_self, toFin_regField, and_self]

@[simp] theorem fields_encodeSI :
    rs1Of (encodeSI op rs1 n) = rs1 ∧ imm16Of (encodeSI op rs1 n) = n % 2 ^ 16 := by
  simp (disch := decide) only [rs1Of, imm16Of, encodeSI, extractLsb'_append_eq_of_le,
    extractLsb'_append_eq_of_add_le, Nat.reduceSub, extractLsb'_eq_self, toFin_regField, toNat_ofNat,
    and_self]

@[simp] theorem fields_encodeSH :
    rdOf (encodeSH op rd rs1 n) = rd ∧ rs1Of (encodeSH op rd rs1 n) = rs1 ∧
      shamtOf (encodeSH op rd rs1 n) = n % 2 ^ 5 := by
  simp (disch := decide) only [rdOf, rs1Of, shamtOf, encodeSH, extractLsb'_append_eq_of_le,
    extractLsb'_append_eq_of_add_le, Nat.reduceSub, extractLsb'_eq_self, toFin_regField, toNat_ofNat,
    and_self]

end Fields

/-! ### A word from its fields (R71, R72)

The zeros of a format are the word's own bits when the word matches the mask, so the encoding joins
adjacent fields of the word, from bit 31 down to bit 0. -/

section Reassembly

open BitVec (extractLsb'_append_extractLsb'_eq_extractLsb' extractLsb'_eq_self)

/-- A field that a row's mask fixes below the opcode is 0 in a word that matches the row. -/
theorem field_eq_zero_of_masked {c m : Word} {op : BitVec 8} (h : c &&& m = op ++ 0#24) (k n : Nat)
    (hkn : k + n ≤ 24) (hm : m.extractLsb' k n = BitVec.allOnes n) : c.extractLsb' k n = 0#n :=
  calc c.extractLsb' k n
      = (c &&& m).extractLsb' k n := by rw [BitVec.extractLsb'_and, hm, BitVec.and_allOnes]
    _ = (op ++ 0#24).extractLsb' k n := by rw [h]
    _ = 0#n := by rw [BitVec.extractLsb'_append_eq_of_add_le hkn, BitVec.extractLsb'_zero]

theorem opcodeOf_append_low (c : Word) : opcodeOf c ++ c.extractLsb' 0 24 = c :=
  BitVec.extractLsb'_append_extractLsb' (w := 8) (len := 24)

theorem regField_rdOf (c : Word) : regField (rdOf c) = c.extractLsb' 20 4 := rfl

theorem regField_rs1Of (c : Word) : regField (rs1Of c) = c.extractLsb' 16 4 := rfl

theorem regField_rs2Of (c : Word) : regField (rs2Of c) = c.extractLsb' 12 4 := rfl

theorem ofNat_imm16Of (c : Word) : BitVec.ofNat 16 (imm16Of c) = c.extractLsb' 0 16 :=
  BitVec.eq_of_toNat_eq (Nat.mod_eq_of_lt (c.extractLsb' 0 16).isLt)

theorem ofNat_shamtOf (c : Word) : BitVec.ofNat 5 (shamtOf c) = c.extractLsb' 0 5 :=
  BitVec.eq_of_toNat_eq (Nat.mod_eq_of_lt (c.extractLsb' 0 5).isLt)

variable {c : Word} {op : BitVec 8} (hop : opcodeOf c = op)
include hop

theorem encodeN_of_masked (h : c &&& Format.N.mask = op ++ 0#24) : encodeN op = c := by
  subst hop
  rw [encodeN, ← field_eq_zero_of_masked h 0 24 (by decide) (by decide)]
  exact opcodeOf_append_low c

theorem encodeD_of_masked (h : c &&& Format.D.mask = op ++ 0#24) : encodeD op (rdOf c) = c := by
  subst hop
  rw [encodeD, ← field_eq_zero_of_masked h 0 20 (by decide) (by decide)]
  simp (disch := decide) only [opcodeOf, regField_rdOf, extractLsb'_append_extractLsb'_eq_extractLsb',
    extractLsb'_eq_self]

theorem encodeS_of_masked (h : c &&& Format.S.mask = op ++ 0#24) : encodeS op (rs1Of c) = c := by
  subst hop
  rw [encodeS, ← field_eq_zero_of_masked h 20 4 (by decide) (by decide),
    ← field_eq_zero_of_masked h 0 16 (by decide) (by decide)]
  simp (disch := decide) only [opcodeOf, regField_rs1Of, extractLsb'_append_extractLsb'_eq_extractLsb',
    extractLsb'_eq_self]

theorem encodeDS_of_masked (h : c &&& Format.DS.mask = op ++ 0#24) :
    encodeDS op (rdOf c) (rs1Of c) = c := by
  subst hop
  rw [encodeDS, ← field_eq_zero_of_masked h 0 16 (by decide) (by decide)]
  simp (disch := decide) only [opcodeOf, regField_rdOf, regField_rs1Of,
    extractLsb'_append_extractLsb'_eq_extractLsb', extractLsb'_eq_self]

theorem encodeSS_of_masked (h : c &&& Format.SS.mask = op ++ 0#24) :
    encodeSS op (rs1Of c) (rs2Of c) = c := by
  subst hop
  rw [encodeSS, ← field_eq_zero_of_masked h 20 4 (by decide) (by decide),
    ← field_eq_zero_of_masked h 0 12 (by decide) (by decide)]
  simp (disch := decide) only [opcodeOf, regField_rs1Of, regField_rs2Of,
    extractLsb'_append_extractLsb'_eq_extractLsb', extractLsb'_eq_self]

theorem encodeR_of_masked (h : c &&& Format.R.mask = op ++ 0#24) :
    encodeR op (rdOf c) (rs1Of c) (rs2Of c) = c := by
  subst hop
  rw [encodeR, ← field_eq_zero_of_masked h 0 12 (by decide) (by decide)]
  simp (disch := decide) only [opcodeOf, regField_rdOf, regField_rs1Of, regField_rs2Of,
    extractLsb'_append_extractLsb'_eq_extractLsb', extractLsb'_eq_self]

theorem encodeSI_of_masked (h : c &&& Format.SI.mask = op ++ 0#24) :
    encodeSI op (rs1Of c) (imm16Of c) = c := by
  subst hop
  rw [encodeSI, ← field_eq_zero_of_masked h 20 4 (by decide) (by decide)]
  simp (disch := decide) only [opcodeOf, regField_rs1Of, ofNat_imm16Of,
    extractLsb'_append_extractLsb'_eq_extractLsb', extractLsb'_eq_self]

theorem encodeSH_of_masked (h : c &&& Format.SH.mask = op ++ 0#24) :
    encodeSH op (rdOf c) (rs1Of c) (shamtOf c) = c := by
  subst hop
  rw [encodeSH, ← field_eq_zero_of_masked h 5 11 (by decide) (by decide)]
  simp (disch := decide) only [opcodeOf, regField_rdOf, regField_rs1Of, ofNat_shamtOf,
    extractLsb'_append_extractLsb'_eq_extractLsb', extractLsb'_eq_self]

end Reassembly

/-! ### The rows of the opcode map (R75) -/

/-- An opcode's row is the one that carries it: no two rows share an opcode. -/
theorem opcodeRow_eq_some_iff {op : BitVec 8} {r : OpRow} :
    opcodeRow op = some r ↔ r ∈ opTable ∧ r.opcode = op := by
  have hfound {q : OpRow} (hq : opcodeRow op = some q) : q ∈ opTable ∧ q.opcode = op :=
    ⟨List.mem_of_find?_eq_some hq, by simpa using List.find?_some hq⟩
  refine ⟨hfound, fun ⟨hr, hop⟩ => ?_⟩
  obtain ⟨q, hq⟩ : ∃ q, opcodeRow op = some q :=
    Option.isSome_iff_exists.1 (List.find?_isSome.2 ⟨r, hr, beq_iff_eq.2 hop⟩)
  obtain ⟨hqmem, hqop⟩ := hfound hq
  obtain rfl : q = r := List.inj_on_of_nodup_map opTable_opcodes_distinct hqmem hr (hqop.trans hop.symm)
  exact hq

theorem rowPattern : (i : Instr) → RowPattern.Statement i
  | .nop => RowPattern.nop
  | .alloc rd => RowPattern.alloc rd
  | .free rd => RowPattern.free rd
  | .copy rd rs1 => RowPattern.copy rd rs1
  | .swap rd rs1 => RowPattern.swap rd rs1
  | .pushw rd => RowPattern.pushw rd
  | .rdw rs1 imm16 => RowPattern.rdw rs1 imm16
  | .rdhdr rs1 => RowPattern.rdhdr rs1
  | .bitlen rs1 => RowPattern.bitlen rs1
  | .cmp rs1 rs2 => RowPattern.cmp rs1 rs2
  | .add rd rs1 rs2 => RowPattern.add rd rs1 rs2
  | .sub rd rs1 rs2 => RowPattern.sub rd rs1 rs2
  | .addm rd rs1 rs2 => RowPattern.addm rd rs1 rs2
  | .subm rd rs1 rs2 => RowPattern.subm rd rs1 rs2
  | .neg rd rs1 => RowPattern.neg rd rs1
  | .mul rd rs1 rs2 => RowPattern.mul rd rs1 rs2
  | .shl rd rs1 shamt => RowPattern.shl rd rs1 shamt
  | .todec rs1 => RowPattern.todec rs1
  | .fib rd => RowPattern.fib rd

/-- The row of a command's opcode has the command's `match` and mask, and rebuilds the command from its
encoding. Only RDW and SHL need their immediate in range (R73, R79). -/
theorem exists_row_of_wellFormed {i : Instr} (hwf : i.wellFormed = true) :
    ∃ r, opcodeRow (RowPattern.opcode i) = some r ∧ r.matchWord = RowPattern.opcode i ++ 0#24 ∧
      r.format.mask = RowPattern.mask i ∧ r.build (encode i) = i := by
  cases i with
  | rdw rs1 imm16 =>
    have hlt : imm16 < 65536 := of_decide_eq_true hwf
    exact ⟨_, rfl, rfl, rfl, by simpa [encode] using hlt⟩
  | shl rd rs1 shamt =>
    have hlt : shamt < 32 := of_decide_eq_true hwf
    exact ⟨_, rfl, rfl, rfl, by simpa [encode] using hlt⟩
  | _ => exact ⟨_, rfl, rfl, rfl, by simp [encode]⟩

/-- The row builds, from a word that matches it, a well-formed command whose encoding is the word. -/
def OpRow.Reencodes (r : OpRow) : Prop :=
  ∀ c : Word, opcodeOf c = r.opcode → c &&& r.format.mask = r.matchWord →
    (r.build c).wellFormed = true ∧ encode (r.build c) = c

theorem opTableLow_reencodes : ∀ r ∈ opTableLow, r.Reencodes := by
  simp only [opTableLow, List.forall_mem_cons]
  exact ⟨
    fun _ hop h => ⟨rfl, encodeN_of_masked hop h⟩,
    fun _ hop h => ⟨rfl, encodeD_of_masked hop h⟩,
    fun _ hop h => ⟨rfl, encodeD_of_masked hop h⟩,
    fun _ hop h => ⟨rfl, encodeDS_of_masked hop h⟩,
    fun _ hop h => ⟨rfl, encodeDS_of_masked hop h⟩,
    fun _ hop h => ⟨rfl, encodeD_of_masked hop h⟩,
    fun c hop h => ⟨decide_eq_true (c.extractLsb' 0 16).isLt, encodeSI_of_masked hop h⟩,
    fun _ hop h => ⟨rfl, encodeS_of_masked hop h⟩,
    fun _ hop h => ⟨rfl, encodeS_of_masked hop h⟩,
    fun _ hop h => ⟨rfl, encodeSS_of_masked hop h⟩,
    List.forall_mem_nil _⟩

theorem opTableHigh_reencodes : ∀ r ∈ opTableHigh, r.Reencodes := by
  simp only [opTableHigh, List.forall_mem_cons]
  exact ⟨
    fun _ hop h => ⟨rfl, encodeR_of_masked hop h⟩,
    fun _ hop h => ⟨rfl, encodeR_of_masked hop h⟩,
    fun _ hop h => ⟨rfl, encodeR_of_masked hop h⟩,
    fun _ hop h => ⟨rfl, encodeR_of_masked hop h⟩,
    fun _ hop h => ⟨rfl, encodeDS_of_masked hop h⟩,
    fun _ hop h => ⟨rfl, encodeR_of_masked hop h⟩,
    fun c hop h => ⟨decide_eq_true (c.extractLsb' 0 5).isLt, encodeSH_of_masked hop h⟩,
    fun _ hop h => ⟨rfl, encodeS_of_masked hop h⟩,
    fun _ hop h => ⟨rfl, encodeD_of_masked hop h⟩,
    List.forall_mem_nil _⟩

theorem opTable_reencodes {r : OpRow} (hr : r ∈ opTable) : r.Reencodes :=
  (List.mem_append.1 hr).elim (opTableLow_reencodes r) (opTableHigh_reencodes r)

/-! ### The must-be-zero bits of a row (R72, R75) -/

/-- The must-be-zero bits of a format: its mask below the opcode (R72). -/
def Format.mustBeZero (f : Format) : BitVec 24 := f.mask.extractLsb' 0 24

theorem Format.mask_eq_append (f : Format) : f.mask = BitVec.allOnes 8 ++ f.mustBeZero := by
  cases f <;> decide

/-- The list written from R72 and R75 is what the decoder's own table gives. -/
theorem mustBeZeroBits_eq_map :
    mustBeZeroBits = opTable.map fun r => (r.opcode, 0#8 ++ r.format.mustBeZero) := by
  decide

theorem and_append_word (c : Word) (a : BitVec 8) (m : BitVec 24) :
    c &&& (a ++ m) = (opcodeOf c &&& a) ++ (c.extractLsb' 0 24 &&& m) := by
  rw [← BitVec.and_append, opcodeOf_append_low]

/-- The comparison of R76, for a word with the row's opcode, is of the must-be-zero bits alone. -/
theorem masked_eq_iff (c : Word) (f : Format) :
    c &&& f.mask = opcodeOf c ++ 0#24 ↔ c &&& (0#8 ++ f.mustBeZero) = 0 := by
  have hzero : (0 : Word) = 0#8 ++ 0#24 := rfl
  rw [f.mask_eq_append, and_append_word, and_append_word, BitVec.and_allOnes, BitVec.and_zero, hzero,
    BitVec.append_right_inj, BitVec.append_right_inj]

theorem assignedOpcode_iff {c : Word} : assignedOpcode c ↔ ∃ r, opcodeRow (opcodeOf c) = some r := by
  simp only [assignedOpcode, mustBeZeroBits_eq_map, List.mem_map, exists_exists_and_eq_and,
    opcodeRow_eq_some_iff, opcodeOf]

theorem mustBeZeroViolated_iff {c : Word} :
    mustBeZeroViolated c ↔
      ∃ r, opcodeRow (opcodeOf c) = some r ∧ c &&& r.format.mask ≠ r.matchWord := by
  simp only [mustBeZeroViolated, mustBeZeroBits_eq_map, List.mem_map, exists_exists_and_eq_and,
    opcodeRow_eq_some_iff, and_assoc]
  refine exists_congr fun r => and_congr_right fun _ => and_congr_right fun hop => ?_
  rw [Ne, ← masked_eq_iff, OpRow.matchWord, hop, opcodeOf]

end Sys2Proof

namespace Sys2Proof.Machine

/-! ### Completing the command in flight (R226) -/

theorem step_of_completesNext {s : State} (h : s.completesNext) : step s = runLatched s.popped := by
  obtain ⟨hb, hi | ⟨es, hi⟩⟩ := h
  · rw [step_no_event_busy hi hb, popped_of_nil hi]
  · rw [step_event hi, popped_of_cons hi]
    exact if_pos hb

theorem withFetchWord_eq_placeCommand (s : State) (c : Word) :
    s.withFetchWord 32 c.toNat = s.placeCommand c := by
  unfold State.withFetchWord tableWord
  rw [Nat.mod_eq_of_lt c.isLt, BitVec.ofNat_toNat, BitVec.setWidth_eq]

/-- A placed command is in flight with its completion the next event. -/
theorem placeCommand_completesNext (s : State) (c : Word) : (s.placeCommand c).completesNext :=
  ⟨rfl, .inr ⟨_, rfl⟩⟩

end Sys2Proof.Machine

open Sys2Proof Sys2Proof.Machine

/-- Settles O1: the row of the command's opcode matches its encoding and rebuilds the command. -/
theorem decodeOfEncode : Obligations.DecodeOfEncode := by
  intro i hwf
  obtain ⟨hop, hmask⟩ := rowPattern i
  obtain ⟨r, hrow, hmatch, hformat, hbuild⟩ := exists_row_of_wellFormed hwf
  rw [decode_of_row hop hrow (by rw [hformat, hmask, hmatch]), hbuild]

/-- Settles O2: a word that decodes matches its opcode's row, and every row reencodes. -/
theorem encodeOfDecode : Obligations.EncodeOfDecode := by
  intro c i h
  obtain ⟨-, he⟩ | ⟨r, hrow, ⟨hmask, hok⟩ | ⟨-, he⟩⟩ := decode_cases c
  · cases he.symm.trans h
  · obtain ⟨hr, hop⟩ := opcodeRow_eq_some_iff.1 hrow
    obtain rfl : r.build c = i := Except.ok.inj (hok.symm.trans h)
    exact opTable_reencodes hr c hop.symm hmask
  · cases he.symm.trans h

/-- Settles O3, by the three answers of `decode`. -/
theorem illegalWordsExactly : Obligations.IllegalWordsExactly := by
  intro c
  rw [assignedOpcode_iff, mustBeZeroViolated_iff]
  obtain ⟨hnone, he⟩ | ⟨r, hrow, ⟨hmask, hok⟩ | ⟨hmask, he⟩⟩ := decode_cases c
  · simp [he, hnone]
  · simp [hok, hrow, hmask]
  · simp [he, hrow, hmask]

/-- Settles O4, each word by evaluation. -/
theorem specWordsDecode : Obligations.SpecWordsDecode :=
  ⟨rfl, rfl, rfl, rfl, rfl, rfl, rfl, rfl, rfl, rfl, rfl, rfl⟩

/-- Settles O5. The second clause is the first for the state `withFetchWord` makes. -/
theorem stepRunsTheLatchedCommand : Obligations.StepRunsTheLatchedCommand := by
  have hstep (s : State) (i : Instr) (hs : s.completesNext) (hd : decode s.latch = .ok i) :
      step s = exec i s.popped := by
    rw [step_of_completesNext hs]
    exact runLatched_ok hd
  refine ⟨hstep, fun s c i hd => ?_⟩
  rw [withFetchWord_eq_placeCommand]
  exact hstep _ i (placeCommand_completesNext s c) hd
end

section
/-! PROOFS. Lifecycle and word transfer (40_lifecycle.md): what NOP, ALLOC, FREE, COPY, SWAP, PUSHW, RDW and
RDHDR make of the state. Each passes its checks, and its one write then completes. -/

namespace Sys2Proof.Machine

/-! ### Checks and completion (R201, R204, R226) -/

/-- Past the check of a valid register, a command completes with what it computes from its content. -/
theorem complete_need {s : State} {r : RegId} {x : BigInt} (h : s.br r = some x)
    (f : BigInt → Except CmdFault State) : s.complete (s.need r >>= f) = s.complete (f x) := by
  rw [need_of_valid h, bind_ok]

/-- The check of an invalid register ends the command, whatever was to come after it. -/
theorem complete_need_of_invalid {s : State} {r : RegId} (h : s.br r = none)
    (f : BigInt → Except CmdFault State) :
    s.complete (s.need r >>= f) = .next (s.faulted .invalidOperand) := by
  rw [need_of_invalid h, bind_error, complete_error]
  rfl

/-- A command whose one write is `BR[rd] <- x` ends with `wrote`. -/
theorem complete_setBr (s : State) (rd : RegId) (x : BigInt) :
    s.complete (.ok (s.setBr rd x)) = .next (s.wrote rd x) := rfl

/-- A command whose one write is `DATA <- v` ends with `answered`. -/
theorem complete_setData (s : State) (v : Word) : s.complete (.ok (s.setData v)) = .next (s.answered v) := rfl

/-! ### Values the commands write -/

/-- `mk` of one word is that word alone, zero included (R14, R101). -/
theorem mkBig_word (w : Word) : mkBig false w.toNat = ⟨false, [w]⟩ := by
  have hn : BigInt.Norm ⟨false, [w]⟩ := ⟨le_rfl, (by decide : 1 ≤ Config.MAXW), .inl rfl, fun _ => rfl⟩
  exact (Norm.eq_mkBig hn).symm

/-- Pushing a word makes the magnitude of the words with that word below them, one word longer (R105). -/
theorem nw_push_le (x : BigInt) (w : Word) : nw (x.mag * 2 ^ 32 + w.toNat) ≤ x.len + 1 := by
  have hm : x.mag * 2 ^ 32 + w.toNat = magOf (w :: x.words) := by
    rw [magOf_cons, Nat.add_comm, Nat.mul_comm]
    rfl
  rw [hm]
  exact (nw_le_iff (Nat.le_add_left 1 x.len)).2 (magOf_lt (w :: x.words))

theorem pushWord_of_len_lt {x : BigInt} (h : x.len < Config.MAXW) (w : Word) :
    pushWord x w = .ok (mkBig x.sign (x.mag * 2 ^ 32 + w.toNat)) :=
  sized_of_le _ ((nw_push_le x w).trans h)

/-- The header word as a number: its fields do not overlap while the length fits 16 bits (R107). -/
theorem toNat_header {x : BigInt} (h : x.len < 2 ^ 16) :
    x.header.toNat = (if x.sign then 2 ^ 31 else 0) + 2 ^ 30 + x.len := by
  have hlow : (BitVec.ofNat 16 x.len).toNat = x.len := Nat.mod_eq_of_lt h
  rw [BigInt.header, BitVec.toNat_append, hlow, ← Nat.shiftLeft_add_eq_or_of_lt h]
  cases x.sign <;> rfl

end Sys2Proof.Machine

open Sys2Proof Sys2Proof.Machine

/-- Settles O30: below full length the pushed word still fits (R23). -/
theorem pushwResult : Obligations.PushwResult := by
  intro s rd x hx _ hlen
  calc exec (.pushw rd) s
    _ = s.complete (pushWord x s.data >>= fun y => pure (s.setBr rd y)) := complete_need hx _
    _ = s.complete (.ok (s.setBr rd (mkBig x.sign (x.mag * 2 ^ 32 + s.data.toNat)))) := by
      rw [pushWord_of_len_lt hlen, bind_ok, pure_eq_ok]
    _ = .next (s.wrote rd _) := complete_setBr s rd _

/-- Settles O31: a word of the register is that word of its magnitude, 0 beyond its length. -/
theorem rdwResult : Obligations.RdwResult := by
  intro s rs1 imm16 x hx
  exact ⟨x.word imm16, complete_need hx _, toNat_getD_eq x.words imm16⟩

/-- Settles O32: RDHDR checks no register (R204), and the length of a normalized one is `nw` of its
magnitude. -/
theorem rdhdrResult : Obligations.RdhdrResult := by
  intro s rs1
  refine ⟨fun hnone => ?_, fun x hx hn => ⟨x.header, ?_, ?_⟩⟩
  · rw [exec, execRdhdr, hnone, complete_setData]
  · rw [exec, execRdhdr, hx, complete_setData]
  · have hlen := Norm.len_eq hn
    obtain ⟨-, hmax, -, -⟩ := hn
    rw [toNat_header (hmax.trans_lt (by decide)), hlen]

/-- Settles O25: with no effects, completion is all that NOP does. -/
theorem nopResult : Obligations.NopResult := fun s => complete_ok s s

/-- Settles O26: `mk` of DATA is the one word in DATA. -/
theorem allocResult : Obligations.AllocResult := by
  intro s rd
  rw [← mkBig_word]
  exact complete_setBr s rd _

/-- Settles O27: the first FREE leaves rd invalid, so the check of the second fails. -/
theorem freeResult : Obligations.FreeResult := by
  intro s rd x hx
  have hinvalid : (s.invalidate rd).finish.br rd = none := by simp
  exact ⟨_, complete_need hx _, rfl, hinvalid, complete_need_of_invalid hinvalid _⟩

/-- Settles O28: with both registers valid, the one write is of rs1's content. -/
theorem copyResult : Obligations.CopyResult := by
  intro s rd rs1 x y hx hy
  exact (complete_need hx _).trans (complete_need hy _)

/-- Settles O29. Where rd and rs1 are one register the two contents are one, and it stays. -/
theorem swapResult : Obligations.SwapResult := by
  intro s rd rs1 x y hx hy
  have hnext : exec (.swap rd rs1) s = .next ((s.setBr rs1 y).setBr rd x).finish :=
    (complete_need hx _).trans (complete_need hy _)
  refine ⟨_, hnext, ?_, ?_, ?_, rfl⟩
  · simp
  · obtain rfl | hne := eq_or_ne rs1 rd
    · simpa using hx.symm.trans hy
    · simp [hne]
  · intro r hrd hrs1
    simp [hrd, hrs1]
end

section
/-! PROOFS. Bit length and comparison (41_compare.md): what BITLEN and CMP make of the state, from the
bit length and the order of the magnitudes of normalized registers. -/

namespace Sys2Proof.Machine

/-! ### Bit length (R120) -/

/-- A normalized register's bit length is at most `32 * MAXW` (R23), so DATA holds it. -/
theorem toNat_ofNat_bl {x : BigInt} (hx : x.Norm) : (BitVec.ofNat 32 x.bl).toNat = bl x.mag := by
  have hle : bl x.mag ≤ 32 * Config.MAXW := (lt_two_pow_iff_bl_le _ _).1 (Norm.mag_lt hx)
  rw [Norm.bl_eq hx, BitVec.toNat_ofNat]
  exact Nat.mod_eq_of_lt (hle.trans_lt (by decide))

/-! ### Comparison (R122) -/

/-- `cmpmag` decides the three-way order of the magnitudes, equality first. -/
theorem cmpmag_eq_order {a b : BigInt} (ha : a.Norm) (hb : b.Norm) :
    cmpmag a b = if a.mag = b.mag then .equal else if a.mag > b.mag then .greater else .less := by
  rw [cmpmag_eq ha hb]
  obtain hlt | heq | hgt := lt_trichotomy a.mag b.mag
  · rw [if_neg hlt.not_gt, if_pos hlt, if_neg hlt.ne, if_neg hlt.not_gt]
  · simp [heq]
  · rw [if_pos hgt, if_neg hgt.ne', if_pos hgt]

end Sys2Proof.Machine

open Sys2Proof Sys2Proof.Machine

/-- Settles O33: DATA gets the bit length, which is the least such n. -/
theorem bitlenResult : Obligations.BitlenResult := by
  intro s rs1 x hx hn
  refine ⟨BitVec.ofNat 32 x.bl, complete_need hx _, fun n => ?_⟩
  rw [toNat_ofNat_bl hn]
  exact lt_two_pow_iff_bl_le x.mag n

/-- Settles O34: with both registers valid, the one write is of CMPRES. -/
theorem cmpResult : Obligations.CmpResult := by
  intro s rs1 rs2 a b ha hb hna hnb
  rw [← cmpmag_eq_order hna hnb]
  exact (complete_need ha _).trans (complete_need hb _)
end

section
/-! PROOFS. Addition, subtraction and negation (42_addsub.md): what ADD, SUB, ADDM, SUBM and NEG make of the
state, from what the datapath returns for operands whose result fits, and that SUB undoes ADD. -/

namespace Sys2Proof.Machine

/-! ### The effects of a command with two sources (R133, R204)

ADD, SUB, ADDM and SUBM check `rs1`, `rs2` and `rd`, run a datapath function on the sources and write the
register its result makes. -/

/-- These effects, for the datapath function `op` and the register `res` its result makes. -/
def State.binary {α : Type} (s : State) (rd rs1 rs2 : RegId) (op : BigInt → BigInt → Except CmdFault α)
    (res : α → BigInt) : Except CmdFault State := do
  let a ← s.need rs1
  let b ← s.need rs2
  let _ ← s.need rd
  let x ← op a b
  pure (s.setBr rd (res x))

theorem exec_add (s : State) (rd rs1 rs2 : RegId) :
    exec (.add rd rs1 rs2) s = s.complete (s.binary rd rs1 rs2 sadd id) := rfl

theorem exec_sub (s : State) (rd rs1 rs2 : RegId) :
    exec (.sub rd rs1 rs2) s = s.complete (s.binary rd rs1 rs2 ssub id) := rfl

theorem exec_addm (s : State) (rd rs1 rs2 : RegId) :
    exec (.addm rd rs1 rs2) s = s.complete (s.binary rd rs1 rs2 addmag (mkBig false)) := rfl

theorem exec_subm (s : State) (rd rs1 rs2 : RegId) :
    exec (.subm rd rs1 rs2) s = s.complete (s.binary rd rs1 rs2 submag (mkBig false)) := rfl

section Binary

variable {α : Type} {s : State} {rd rs1 rs2 : RegId} {a b d : BigInt}
  {op : BigInt → BigInt → Except CmdFault α} {res : α → BigInt}

/-- With the three registers valid, only the datapath can still fault. -/
theorem binary_of_valid (ha : s.br rs1 = some a) (hb : s.br rs2 = some b) (hd : s.br rd = some d) :
    s.binary rd rs1 rs2 op res = op a b >>= fun x => .ok (s.setBr rd (res x)) := by
  simp [State.binary, need_of_valid ha, need_of_valid hb, need_of_valid hd]

theorem complete_binary_of_ok (ha : s.br rs1 = some a) (hb : s.br rs2 = some b) (hd : s.br rd = some d)
    {x : α} (hop : op a b = .ok x) :
    s.complete (s.binary rd rs1 rs2 op res) = .next (s.wrote rd (res x)) := by
  rw [binary_of_valid ha hb hd, hop, bind_ok, complete_setBr]

theorem complete_binary_of_error (ha : s.br rs1 = some a) (hb : s.br rs2 = some b)
    (hd : s.br rd = some d) {e : CmdFault} (hop : op a b = .error e) :
    s.complete (s.binary rd rs1 rs2 op res) = .next (s.faulted e) := by
  rw [binary_of_valid ha hb hd, hop, bind_error, complete_error]
  rfl

/-- Such a command that ends with ERR = 0 found its sources valid and wrote its datapath's result. -/
theorem wrote_of_complete_binary {t : State}
    (h : s.complete (s.binary rd rs1 rs2 op res) = .next t) (herr : t.status.err = false) :
    ∃ a b x, s.br rs1 = some a ∧ s.br rs2 = some b ∧ op a b = .ok x ∧ t = s.wrote rd (res x) := by
  obtain ⟨u, hu, rfl⟩ | ⟨e, -, rfl⟩ := complete_eq_next.1 h
  · obtain ⟨a, ha, hu⟩ := bind_eq_ok.1 hu
    obtain ⟨b, hb, hu⟩ := bind_eq_ok.1 hu
    obtain ⟨_, -, hu⟩ := bind_eq_ok.1 hu
    obtain ⟨x, hx, hu⟩ := bind_eq_ok.1 hu
    obtain rfl : s.setBr rd (res x) = u := Except.ok.inj hu
    exact ⟨a, b, x, need_eq_ok.1 ha, need_eq_ok.1 hb, hx, rfl⟩
  · exact Bool.noConfusion herr

end Binary

theorem br_wrote (s : State) (rd q : RegId) (x : BigInt) :
    (s.wrote rd x).br q = if q = rd then some x else s.br q := br_setBr s rd q x

/-! ### The datapath on operands whose result fits (R135 to R139) -/

section Datapath

variable {a b x : BigInt}

theorem addmag_of_fits (ha : a.Norm) (hb : b.Norm) (h : sumFits a.mag b.mag) :
    addmag a b = .ok (a.mag + b.mag) := by
  rw [addmag_eq ha hb, if_neg h.not_gt]

theorem sadd_of_fits (ha : a.Norm) (hb : b.Norm) (h : a.sign = b.sign → sumFits a.mag b.mag) :
    sadd a b = .ok (BigInt.ofInt (a.val + b.val)) := by
  rw [sadd_eq ha hb, if_neg fun ⟨hs, hgt⟩ => (h hs).not_gt hgt]

theorem neg_sign (x : BigInt) : (neg x).sign = (!x.sign && decide (x.mag ≠ 0)) := rfl

theorem ssub_of_fits (ha : a.Norm) (hb : b.Norm) (h : a.sign = (neg b).sign → sumFits a.mag b.mag) :
    ssub a b = .ok (BigInt.ofInt (a.val - b.val)) := by
  rw [ssub_eq ha hb, if_neg fun ⟨hs, hgt⟩ => (h hs).not_gt hgt]

/-- A difference that `ssub` returns is exact (R139). -/
theorem ssub_ok (ha : a.Norm) (hb : b.Norm) (h : ssub a b = .ok x) :
    x = BigInt.ofInt (a.val - b.val) := by
  rw [Int.sub_eq_add_neg, ← neg_val]
  exact (sadd_ok ha (neg_norm hb) h).1

theorem submag_of_le (h : b.mag ≤ a.mag) : submag a b = .ok (a.mag - b.mag) := by
  rw [submag_eq, if_neg h.not_gt]

theorem submag_of_lt (h : a.mag < b.mag) : submag a b = .error .invalidOperand := by
  rw [submag_eq, if_pos h]

theorem neg_eq_ofInt (h : x.Norm) : neg x = BigInt.ofInt (-x.val) := by
  rw [← neg_val]
  exact Norm.eq_ofInt (neg_norm h)

/-- Subtracting what was added gives a normalized operand back (R134). -/
theorem ssub_sadd_cancel {y : BigInt} (ha : a.Norm) (hb : b.Norm) (hadd : sadd a b = .ok x)
    (hsub : ssub x b = .ok y) : y = a := by
  obtain ⟨hx, hxn⟩ := sadd_ok ha hb hadd
  have hval : x.val = a.val + b.val := by rw [hx, ofInt_val]
  calc y = BigInt.ofInt (x.val - b.val) := ssub_ok hxn hb hsub
    _ = BigInt.ofInt a.val := by rw [hval, Int.add_sub_cancel]
    _ = a := (Norm.eq_ofInt ha).symm

end Datapath

end Sys2Proof.Machine

open Sys2Proof Sys2Proof.Machine

/-- Settles O35: the sum fits by R133's condition, so the datapath returns it exactly. -/
theorem addResult : Obligations.AddResult := by
  intro s rd rs1 rs2 a b d ha hb hd hna hnb hfits
  rw [exec_add]
  exact complete_binary_of_ok ha hb hd (sadd_of_fits hna hnb hfits)

/-- Settles O36: the sign R134 tests is that of the negation of rs2. -/
theorem subResult : Obligations.SubResult := by
  intro s rd rs1 rs2 a b d ha hb hd hna hnb hfits
  rw [← neg_sign] at hfits
  rw [exec_sub]
  exact complete_binary_of_ok ha hb hd (ssub_of_fits hna hnb hfits)

/-- Settles O37: a magnitude sum whose provisional length fits is exact. -/
theorem addmResult : Obligations.AddmResult := by
  intro s rd rs1 rs2 a b d ha hb hd hna hnb hfits
  rw [exec_addm]
  exact complete_binary_of_ok ha hb hd (addmag_of_fits hna hnb hfits)

/-- Settles O38: the order of the magnitudes decides between the result and the fault (R131). -/
theorem submResult : Obligations.SubmResult := by
  intro s rd rs1 rs2 a b d ha hb hd
  rw [exec_subm]
  constructor
  · exact fun hle => complete_binary_of_ok ha hb hd (submag_of_le hle)
  · exact fun hlt => complete_binary_of_error ha hb hd (submag_of_lt hlt)

/-- Settles O39: past its two checks NEG writes `neg` of rs1, which is normalized. -/
theorem negResult : Obligations.NegResult := by
  intro s rd rs1 x d hx hd hn
  rw [← neg_eq_ofInt hn]
  exact (complete_need hx _).trans (complete_need hd _)

/-- Settles O42: SUB reads the sum ADD left in rd, and rs2 as it was, since rd is another register. -/
theorem subUndoesAdd : Obligations.SubUndoesAdd := by
  intro s t u rd rs1 rs2 a hnorm hne ha hadd hterr hsub huerr
  rw [exec_add] at hadd
  rw [exec_sub] at hsub
  obtain ⟨a', b, x, ha', hb, hx, rfl⟩ := wrote_of_complete_binary hadd hterr
  obtain ⟨x', b', y, hx', hb', hy, rfl⟩ := wrote_of_complete_binary hsub huerr
  obtain rfl : a = a' := by simpa [ha] using ha'
  obtain rfl : x = x' := by simpa [br_wrote] using hx'
  obtain rfl : b = b' := by simpa [br_wrote, hne.symm, hb] using hb'
  obtain rfl : y = a := ssub_sadd_cancel (hnorm _ _ ha) (hnorm _ _ hb) hx hy
  simp [br_wrote]
end

section
/-! PROOFS. Multiplication (43_multiply.md): what MUL makes of the state, from what the datapath returns for
operands whose product fits. -/

namespace Sys2Proof.Machine

theorem exec_mul (s : State) (rd rs1 rs2 : RegId) :
    exec (.mul rd rs1 rs2) s = s.complete (s.binary rd rs1 rs2 mul id) := rfl

theorem mul_of_fits {a b : BigInt} (ha : a.Norm) (hb : b.Norm) (h : productFits a.mag b.mag) :
    mul a b = .ok (BigInt.ofInt (a.val * b.val)) := by
  rw [mul_eq ha hb, if_neg h.not_gt]

end Sys2Proof.Machine

open Sys2Proof Sys2Proof.Machine

/-- Settles O40: both sources are read before `rd` is written (R152), and a product that fits R150's bound
is exact. -/
theorem mulResult : Obligations.MulResult := by
  intro s rd rs1 rs2 a b d ha hb hd hna hnb hfits
  rw [exec_mul]
  exact complete_binary_of_ok ha hb hd (mul_of_fits hna hnb hfits)
end

section
/-! PROOFS. Left shift (44_shift.md): what SHL makes of the state, and that SHL by 1 is ADD of a register to
itself, faults included. -/

namespace Sys2Proof.Machine

/-! ### The datapath by R160's condition (R160, R161) -/

section Datapath

variable {x : BigInt} {n : Nat}

theorem shl_of_fits (hx : x.Norm) (hlo : 1 ≤ n) (hhi : n ≤ 31) (h : shiftFits x n) :
    shl x n = .ok (mkBig x.sign (x.mag * 2 ^ n)) := by
  rw [shl_eq hx hlo hhi, if_neg h]

theorem shl_of_not_fits (hx : x.Norm) (hlo : 1 ≤ n) (hhi : n ≤ 31) (h : ¬ shiftFits x n) :
    shl x n = .error .capacity := by
  rw [shl_eq hx hlo hhi, if_pos (not_not.1 h)]

/-! ### Shifting by 1 and adding to itself (R133, R160) -/

/-- Both commands exceed capacity exactly when the magnitude has all of its 32 * MAXW bits. -/
theorem shiftFits_one_iff (hx : x.Norm) : shiftFits x 1 ↔ sumFits x.mag x.mag := by
  have hlen : x.len = max 1 ((bl x.mag + 31) / 32) := Norm.len_eq hx
  have hmax : x.len ≤ Config.MAXW := hx.2.1
  simp only [shiftFits, sumFits, Config.MAXW, max_self] at hmax ⊢
  omega

/-- The doubled magnitude under the sign of `x` is the value of `x` added to itself (D20). -/
theorem mkBig_double (x : BigInt) : mkBig x.sign (x.mag * 2 ^ 1) = BigInt.ofInt (x.val + x.val) := by
  rw [mkBig_eq_ofInt, BigInt.val]
  congr 1
  split <;> omega

theorem sadd_self_of_not_fits (hx : x.Norm) (h : ¬ sumFits x.mag x.mag) : sadd x x = .error .capacity := by
  rw [sadd_eq hx hx, if_pos ⟨rfl, not_le.1 h⟩]

theorem shl_one_eq_sadd_self (hx : x.Norm) : shl x 1 = sadd x x := by
  by_cases h : sumFits x.mag x.mag
  · rw [shl_of_fits hx le_rfl (by norm_num) ((shiftFits_one_iff hx).2 h), mkBig_double,
      sadd_of_fits hx hx fun _ => h]
  · rw [shl_of_not_fits hx le_rfl (by norm_num) (mt (shiftFits_one_iff hx).1 h), sadd_self_of_not_fits hx h]

end Datapath

/-! ### The command (R160) -/

/-- With both registers valid SHL by 0 has no effect, and by another amount only the shifter can fault. -/
theorem exec_shl_of_valid {s : State} {rd rs1 : RegId} {x d : BigInt} (hx : s.br rs1 = some x)
    (hd : s.br rd = some d) (n : Nat) :
    exec (.shl rd rs1 n) s =
      s.complete (if n = 0 then .ok s else shl x n >>= fun y => .ok (s.setBr rd y)) :=
  (complete_need hx _).trans (complete_need hd _)

/-- The two commands check the same registers in the same order and then compute the same value. -/
theorem exec_shl_one_eq_exec_add {s : State} {rs : RegId} (hnorm : ∀ x, s.br rs = some x → x.Norm)
    (rd : RegId) : exec (.shl rd rs 1) s = exec (.add rd rs rs) s := by
  cases hx : s.br rs with
  | none => exact (complete_need_of_invalid hx _).trans (complete_need_of_invalid hx _).symm
  | some x =>
    have hshl : exec (.shl rd rs 1) s =
        s.complete (s.need rd >>= fun _ => shl x 1 >>= fun y => .ok (s.setBr rd y)) := complete_need hx _
    have hadd : exec (.add rd rs rs) s =
        s.complete (s.need rd >>= fun _ => sadd x x >>= fun y => .ok (s.setBr rd y)) :=
      (complete_need hx _).trans (complete_need hx _)
    rw [hshl, hadd, shl_one_eq_sadd_self (hnorm x hx)]

end Sys2Proof.Machine

open Sys2Proof Sys2Proof.Machine

/-- Settles O41: both checks pass; the amount 0 leaves no effect to complete, and a shift that fits is exact. -/
theorem shlResult : Obligations.ShlResult := by
  intro s rd rs1 x d hx hd
  constructor
  · exact exec_shl_of_valid hx hd 0
  · intro n hlo hhi hn hfits
    rw [exec_shl_of_valid hx hd, if_neg (Nat.ne_of_gt hlo), shl_of_fits hn hlo hhi hfits, bind_ok,
      complete_setBr]

/-- Settles O43: the two commands agree on every outcome, so on the one where neither faults. -/
theorem shlByOneIsDoubling : Obligations.ShlByOneIsDoubling := by
  intro s t u rd rs hnorm hshl _ hadd _
  rw [exec_shl_one_eq_exec_add (hnorm rs), hadd] at hshl
  injection hshl with hut
  exact hut.symm
end

section
/-! PROOFS. Decimal conversion (45_decimal.md): what TODEC makes of the state, and that its string always
fits. -/

namespace Sys2Proof.Machine

section Todec
variable {s : State} {rs1 : RegId} {x : BigInt}

/-- With rs1 valid nothing in TODEC can fault: it completes with the converted string (R170, R204). -/
theorem exec_todec_of_valid (hx : s.br rs1 = some x) :
    exec (.todec rs1) s = .next (s.writeDec (dec x)).finish := complete_need hx _

/-- A converted length fits DEC_LEN, so the register holds it exactly (R33, R173). -/
theorem toNat_decLen_writeDec_dec (s : State) (hn : x.Norm) :
    (s.writeDec (dec x)).decLen.toNat = (dec x).length := by
  have hle := dec_length_le hn
  rw [writeDec_decLen, BitVec.toNat_ofNat]
  exact Nat.mod_eq_of_lt (by omega)

/-- A conversion shows the decimal string of the register's sign and magnitude (R171, R174). -/
theorem writeDec_dec_showsString (s : State) (hn : x.Norm) :
    (s.writeDec (dec x)).ShowsString (decimalString x.sign x.mag) := by
  rw [← dec_eq hn]
  exact ⟨toNat_decLen_writeDec_dec s hn, fun _ hlt => read_writeDec s (dec x) hlt⟩

end Todec

end Sys2Proof.Machine

open Sys2Proof Sys2Proof.Machine

/-- Settles O45: the completed conversion shows the string, and differs in the decimal output and STATUS only. -/
theorem todecResult : Obligations.TodecResult := by
  intro s rs1 x hx hn
  exact ⟨_, exec_todec_of_valid hx, writeDec_dec_showsString s hn, rfl⟩

/-- Settles O46: the completion clears ERR, and DEC_LEN is the length of the string, which R173 bounds. -/
theorem todecAlwaysFits : Obligations.TodecAlwaysFits := by
  intro s rs1 x hx hn
  have hlen := toNat_decLen_writeDec_dec s hn
  exact ⟨_, exec_todec_of_valid hx, rfl, hlen ▸ one_le_dec_length hn, hlen ▸ dec_length_le hn⟩
end

section
/-! PROOFS. The FIB sequencer (46_fib.md): one iteration doubles the index, the run computes Fib(k) for every
k up to 2949 and raises CAPACITY for every other, and what FIB makes of the state. -/

namespace Sys2Proof.Machine

/-! ### Bit lengths of results (R14) -/

theorem bl_add_le (a b : Nat) : bl (a + b) ≤ max (bl a) (bl b) + 1 := by
  rw [← lt_two_pow_iff_bl_le, pow_succ]
  have ha : a < 2 ^ max (bl a) (bl b) := (lt_two_pow_iff_bl_le _ _).2 (le_max_left _ _)
  have hb : b < 2 ^ max (bl a) (bl b) := (lt_two_pow_iff_bl_le _ _).2 (le_max_right _ _)
  omega

theorem bl_two_mul_le (a : Nat) : bl (2 * a) ≤ bl a + 1 := by
  simpa [Nat.two_mul] using bl_add_le a a

theorem bl_mul_le (a b : Nat) : bl (a * b) ≤ bl a + bl b :=
  (lt_two_pow_iff_bl_le _ _).1 (mul_lt_two_pow_bl a b)

/-! ### The datapath on natural numbers (R138, R139, R154, R161) -/

section NaturalOperands

variable {a b : Nat}

theorem mkBig_norm_of_bl (s : Bool) (h : bl a ≤ 2048) : (mkBig s a).Norm :=
  mkBig_norm s (by simp only [nw, Config.MAXW]; omega)

theorem shl_one_natural (h : bl a ≤ 2047) : shl (mkBig false a) 1 = .ok (mkBig false (2 * a)) := by
  have hfits : shiftFits (mkBig false a) 1 := by
    simp only [shiftFits, mkBig_mag, Config.MAXW]
    omega
  rw [shl_of_fits (mkBig_norm_of_bl false (by omega)) le_rfl (by norm_num) hfits, mkBig_mag, mkBig_sign,
    Bool.false_and, pow_one, Nat.mul_comm]

theorem sumFits_of_bl (ha : bl a ≤ 2047) (hb : bl b ≤ 2047) : sumFits a b := by
  simp only [sumFits, Config.MAXW]
  omega

theorem sadd_natural (ha : bl a ≤ 2047) (hb : bl b ≤ 2047) :
    sadd (mkBig false a) (mkBig false b) = .ok (mkBig false (a + b)) := by
  rw [sadd_of_fits (mkBig_norm_of_bl false (by omega)) (mkBig_norm_of_bl false (by omega))
      fun _ => by simpa using sumFits_of_bl ha hb,
    mkBig_false_val, mkBig_false_val, ← Nat.cast_add, ofInt_natCast]

theorem ssub_natural (ha : bl a ≤ 2047) (hle : b ≤ a) :
    ssub (mkBig false a) (mkBig false b) = .ok (mkBig false (a - b)) := by
  have hb : bl b ≤ 2047 := (bl_mono hle).trans ha
  rw [ssub_of_fits (mkBig_norm_of_bl false (by omega)) (mkBig_norm_of_bl false (by omega))
      fun _ => by simpa using sumFits_of_bl ha hb,
    mkBig_false_val, mkBig_false_val, ← Nat.cast_sub hle, ofInt_natCast]

theorem mul_natural (h : bl a + bl b ≤ 2048) :
    mul (mkBig false a) (mkBig false b) = .ok (mkBig false (a * b)) := by
  rw [mul_of_fits (mkBig_norm_of_bl false (by omega)) (mkBig_norm_of_bl false (by omega))
      (by simp only [productFits, mkBig_mag, Config.MAXW]; omega),
    mkBig_false_val, mkBig_false_val, ← Nat.cast_mul, ofInt_natCast]

/-- A product of two natural numbers that `mul` returns is the natural product. -/
theorem mul_natural_ok {x : BigInt} (ha : (mkBig false a).Norm) (hb : (mkBig false b).Norm)
    (h : mul (mkBig false a) (mkBig false b) = .ok x) : x = mkBig false (a * b) := by
  rw [(mul_ok ha hb h).1, mkBig_false_val, mkBig_false_val, ← Nat.cast_mul, ofInt_natCast]

end NaturalOperands

/-- A sum of equal signs that `sadd` returns met the size condition of R133. -/
theorem sumFits_of_sadd_ok {a b x : BigInt} (ha : a.Norm) (hb : b.Norm) (hs : a.sign = b.sign)
    (h : sadd a b = .ok x) : sumFits a.mag b.mag := by
  by_contra hc
  rw [sadd_eq ha hb, if_pos ⟨hs, not_le.1 hc⟩] at h
  cases h

/-! ### The only fault of the datapath the sequencer uses (R186) -/

/-- A computation that can raise no fault but CAPACITY. -/
def OnlyCapacity {α : Type} (r : Except CmdFault α) : Prop := ∀ e, r = .error e → e = .capacity

theorem OnlyCapacity.ok {α : Type} (x : α) : OnlyCapacity (.ok x) := fun _ h => nomatch h

theorem OnlyCapacity.ite {α : Type} {c : Prop} [Decidable c] {x : α} :
    OnlyCapacity (if c then .error .capacity else .ok x) := by
  intro e h
  split at h
  · exact (Except.error.inj h).symm
  · cases h

/-- The rest of a sequence is judged on the values its first part returns. -/
theorem OnlyCapacity.bind {α β : Type} {x : Except CmdFault α} {f : α → Except CmdFault β}
    (hx : OnlyCapacity x) (hf : ∀ a, x = .ok a → OnlyCapacity (f a)) : OnlyCapacity (x >>= f) := by
  intro e h
  obtain h | ⟨a, ha, h⟩ := bind_eq_error.1 h
  · exact hx e h
  · exact hf a ha e h

section Operands

variable {a b : BigInt}

theorem onlyCapacity_shl_one (ha : a.Norm) : OnlyCapacity (shl a 1) :=
  shl_eq ha le_rfl (by norm_num) ▸ .ite

theorem onlyCapacity_sadd (ha : a.Norm) (hb : b.Norm) : OnlyCapacity (sadd a b) := sadd_eq ha hb ▸ .ite

theorem onlyCapacity_mul (ha : a.Norm) (hb : b.Norm) : OnlyCapacity (mul a b) := mul_eq ha hb ▸ .ite

end Operands

theorem onlyCapacity_body {q : Sequencer} (h0 : q.fk.Norm) (h1 : q.fk1.Norm) : OnlyCapacity q.body := by
  refine .bind (onlyCapacity_shl_one h1) fun ft hft => ?_
  have nft := (shl_ok h1 le_rfl (by norm_num) hft).2
  refine .bind (onlyCapacity_sadd nft (neg_norm h0)) fun fa hfa => ?_
  have nfa := (sadd_ok nft (neg_norm h0) hfa).2
  refine .bind (onlyCapacity_mul h0 nfa) fun fd0 _ => ?_
  refine .bind (onlyCapacity_mul h0 h0) fun fs1 hfs1 => ?_
  refine .bind (onlyCapacity_mul h1 h1) fun fs2 hfs2 => ?_
  exact .bind (onlyCapacity_sadd (mul_ok h0 h0 hfs1).2 (mul_ok h1 h1 hfs2).2) fun fd1 _ => .ok _

theorem onlyCapacity_select {q : Sequencer} (h : q.Normal) (bit : Bool) : OnlyCapacity (q.select bit) := by
  obtain ⟨-, -, -, -, h4, -, -, h7⟩ := h
  cases bit with
  | false => exact .ok _
  | true => exact .bind (onlyCapacity_sadd h4 h7) fun _ _ => .ok _

theorem onlyCapacity_iteration {q : Sequencer} (h0 : q.fk.Norm) (h1 : q.fk1.Norm) (k : Nat) :
    OnlyCapacity (q.iteration k) :=
  .bind (onlyCapacity_body h0 h1) fun _ hb =>
    .bind (onlyCapacity_select (body_keeps h0 h1 hb).1 _) fun _ _ => .ok _

/-! ### When an iteration has room (R183, R184, R186) -/

section Room

variable {q : Sequencer} {f g : Nat}

/-- The sizes of the numbers in a body with FK1 at most 1023 bits long. -/
theorem bl_body_le (hle : f ≤ g) (hbl : bl g ≤ 1023) :
    bl f ≤ 1023 ∧ bl (2 * g) ≤ 1024 ∧ bl (2 * g - f) ≤ 1024 ∧ bl (f * f) ≤ 2046 ∧ bl (g * g) ≤ 2046 := by
  have hf : bl f ≤ 1023 := (bl_mono hle).trans hbl
  have ht : bl (2 * g) ≤ 1024 := (bl_two_mul_le g).trans (by omega)
  exact ⟨hf, ht, (bl_mono (Nat.sub_le _ _)).trans ht, (bl_mul_le f f).trans (by omega),
    (bl_mul_le g g).trans (by omega)⟩

/-- With FK1 at most 1023 bits long every provisional length of the body is within MAXW. -/
theorem body_of_bl_le (hf : q.fk = mkBig false f) (hg : q.fk1 = mkBig false g) (hle : f ≤ g)
    (hbl : bl g ≤ 1023) : ∃ q', q.body = .ok q' := by
  obtain ⟨hblf, hblt, hbla, hblff, hblgg⟩ := bl_body_le hle hbl
  have hft := shl_one_natural (a := g) (by omega)
  have hfa := ssub_natural (a := 2 * g) (b := f) (by omega) (by omega)
  have hfd0 := mul_natural (a := f) (b := 2 * g - f) (by omega)
  have hfs1 := mul_natural (a := f) (b := f) (by omega)
  have hfs2 := mul_natural (a := g) (b := g) (by omega)
  have hfd1 := sadd_natural (a := f * f) (b := g * g) (by omega) (by omega)
  rw [← hf] at hfa hfd0 hfs1
  rw [← hg] at hft hfs2
  exact ⟨_, body_eq_ok.2 ⟨_, hft, _, hfa, _, hfd0, _, hfs1, _, hfs2, _, hfd1, rfl⟩⟩

/-- With room for the sum of FD0 and FD1 the selection succeeds, whichever way the bit goes. -/
theorem select_of_sadd_ok {u : BigInt} (h : sadd q.fd0 q.fd1 = .ok u) (bit : Bool) :
    ∃ q', q.select bit = .ok q' := by
  cases bit with
  | false => exact ⟨_, rfl⟩
  | true => exact ⟨_, bind_eq_ok.2 ⟨u, h, rfl⟩⟩

/-- After such a body the selection has room too: FD0 and FD1 have at most 2047 bits. -/
theorem iteration_of_bl_le (hf : q.fk = mkBig false f) (hg : q.fk1 = mkBig false g) (h0 : q.fk.Norm)
    (h1 : q.fk1.Norm) (hle : f ≤ g) (hbl : bl g ≤ 1023) (k : Nat) : ∃ q', q.iteration k = .ok q' := by
  obtain ⟨q1, hb⟩ := body_of_bl_le hf hg hle hbl
  obtain ⟨e0, e1⟩ := body_values hf hg h0 h1 (by omega) hb
  obtain ⟨hblf, -, hbla, hblff, hblgg⟩ := bl_body_le hle hbl
  have hd0 := bl_mul_le f (2 * g - f)
  have hd1 := bl_add_le (f * f) (g * g)
  have hsum := sadd_natural (a := f * (2 * g - f)) (b := f * f + g * g) (by omega) (by omega)
  rw [← e0, ← e1] at hsum
  obtain ⟨q2, hs⟩ := select_of_sadd_ok hsum (k.testBit q.i.val)
  exact ⟨_, iteration_eq_ok.2 ⟨q1, hb, q2, hs, rfl⟩⟩

/-- A body that succeeds found room for the sum of the squares, so FK1's square has at most 2047 bits. -/
theorem bl_sq_le_of_body_ok {q' : Sequencer} (hf : q.fk = mkBig false f) (hg : q.fk1 = mkBig false g)
    (h0 : q.fk.Norm) (h1 : q.fk1.Norm) (hb : q.body = .ok q') : bl (g * g) ≤ 2047 := by
  obtain ⟨_, -, _, -, _, -, fs1, hfs1, fs2, hfs2, fd1, hfd1, -⟩ := body_eq_ok.1 hb
  have n1 := (mul_ok h0 h0 hfs1).2
  have n2 := (mul_ok h1 h1 hfs2).2
  rw [hf] at h0 hfs1
  rw [hg] at h1 hfs2
  obtain rfl := mul_natural_ok h0 h0 hfs1
  obtain rfl := mul_natural_ok h1 h1 hfs2
  have hfits := sumFits_of_sadd_ok n1 n2 (by simp) hfd1
  simp only [sumFits, mkBig_mag, Config.MAXW] at hfits
  omega

end Room

/-! ### The invariant of R188 -/

/-- FK and FK1 hold Fib(m) and Fib(m+1), normalized (R39, R188). -/
structure Sequencer.HoldsFib (q : Sequencer) (m : Nat) : Prop where
  fk : q.fk = mkBig false (Nat.fib m)
  fk1 : q.fk1 = mkBig false (Nat.fib (m + 1))
  norm : q.fk.Norm
  norm1 : q.fk1.Norm

/-- Consuming bit `i` doubles the index and adds the bit (R188). -/
theorem div_two_pow_eq_double (k i : Nat) : k / 2 ^ i = 2 * (k / 2 ^ (i + 1)) + (k.testBit i).toNat := by
  rw [Nat.toNat_testBit, pow_succ, ← Nat.div_div_eq_div_mul]
  omega

/-- The identities of R188, as R184 selects them: the numbers an iteration computes at index m are the pair
for index 2m, or 2m + 1 when the bit is set. -/
theorem fib_double (m : Nat) (bit : Bool) :
    let a := Nat.fib m * (2 * Nat.fib (m + 1) - Nat.fib m)
    let b := Nat.fib m * Nat.fib m + Nat.fib (m + 1) * Nat.fib (m + 1)
    (if bit then b else a) = Nat.fib (2 * m + bit.toNat) ∧
      (if bit then a + b else b) = Nat.fib (2 * m + bit.toNat + 1) := by
  have ha := Nat.fib_two_mul m
  have hb : Nat.fib (2 * m + 1) = Nat.fib m * Nat.fib m + Nat.fib (m + 1) * Nat.fib (m + 1) := by
    rw [Nat.fib_two_mul_add_one]
    ring
  cases bit with
  | false => exact ⟨ha.symm, hb.symm⟩
  | true => exact ⟨hb.symm, by rw [← ha, ← hb]; exact Nat.fib_add_two.symm⟩

/-- An iteration that succeeds moves the pair on to the index with bit `i` consumed. -/
theorem holdsFib_iteration {k : Nat} {q q' : Sequencer} (h : q.HoldsFib (k / 2 ^ (q.i.val + 1)))
    (hit : q.iteration k = .ok q') : q'.HoldsFib (k / 2 ^ q.i.val) := by
  obtain ⟨hf, hg, h0, h1⟩ := h
  have hle := Nat.fib_le_fib_succ (n := k / 2 ^ (q.i.val + 1))
  obtain ⟨hn, hf', hg'⟩ := iteration_ok hf hg h0 h1 (by omega) hit
  obtain ⟨ef, eg⟩ := fib_double (k / 2 ^ (q.i.val + 1)) (k.testBit q.i.val)
  rw [div_two_pow_eq_double k q.i.val]
  exact ⟨hf'.trans (congrArg _ ef), hg'.trans (congrArg _ eg), hn.1, hn.2.1⟩

/-! ### One ITER arrow and the run (R185, R186) -/

/-- The sequencer is in ITER with the pair for the bits of k above bit `i`. -/
def Sequencer.AtBit (q : Sequencer) (k : Nat) : Prop :=
  q.fsm = .iter ∧ q.HoldsFib (k / 2 ^ (q.i.val + 1))

/-- The arrow out of bit 0 goes to RENDER, every other to ITER for the next bit (R185). -/
theorem iteration_control {k : Nat} {q q' : Sequencer} (h0 : q.fk.Norm) (h1 : q.fk1.Norm)
    (h : q.iteration k = .ok q') :
    (q.i.val = 0 ∧ q'.fsm = .render) ∨ (0 < q.i.val ∧ q'.fsm = q.fsm ∧ q'.i.val = q.i.val - 1) := by
  obtain ⟨q1, hb, q2, hs, rfl⟩ := iteration_eq_ok.1 h
  obtain ⟨n1, -, -, hi1, hfsm1⟩ := body_keeps h0 h1 hb
  obtain ⟨-, hi2, hfsm2⟩ := select_keeps n1 hs
  rw [← hi1, ← hi2, ← hfsm1, ← hfsm2]
  unfold Sequencer.advance
  split
  · next hz => exact .inl ⟨hz, rfl⟩
  · next hz => exact .inr ⟨Nat.pos_of_ne_zero hz, rfl, Nat.mod_eq_of_lt (by have := q2.i.isLt; omega)⟩

/-- Fib(1475) has 1023 bits: every iteration for an index up to 2949 has room. -/
theorem bl_fib_succ_le {m : Nat} (h : m ≤ 1474) : bl (Nat.fib (m + 1)) ≤ 1023 :=
  (bl_mono (Nat.fib_mono (Nat.succ_le_succ h))).trans (by decide +kernel)

/-- Fib(1476)^2 has 2048 bits: the last iteration for an index from 2950 on has no room. -/
theorem lt_bl_fib_succ_sq {m : Nat} (h : 1475 ≤ m) :
    2047 < bl (Nat.fib (m + 1) * Nat.fib (m + 1)) := by
  have hmono : Nat.fib 1476 ≤ Nat.fib (m + 1) := Nat.fib_mono (Nat.succ_le_succ h)
  exact lt_of_lt_of_le (by decide +kernel) (bl_mono (Nat.mul_le_mul hmono hmono))

/-- All that one ITER arrow can do from the invariant. -/
inductive ArrowOutcome (k : Nat) (q : Sequencer) : Except CmdFault Sequencer → Prop
  /-- The last bit is consumed, which no k above 2949 comes to. -/
  | last {q' : Sequencer} (hk : k ≤ 2949) (hfsm : q'.fsm = .render) (h : q'.HoldsFib k) : ArrowOutcome k q (.ok q')
  /-- The invariant holds at the next bit. -/
  | more {q' : Sequencer} (hi : q'.i.val < q.i.val) (h : q'.AtBit k) : ArrowOutcome k q (.ok q')
  /-- A provisional length exceeds MAXW, which no k up to 2949 comes to. -/
  | full (hk : 2949 < k) : ArrowOutcome k q (.error .capacity)

theorem iteration_outcome {k : Nat} {q : Sequencer} (h : q.AtBit k) : ArrowOutcome k q (q.iteration k) := by
  obtain ⟨hfsm, hfib⟩ := h
  have ⟨hf, hg, h0, h1⟩ := hfib
  cases hit : q.iteration k with
  | error e =>
    obtain rfl := onlyCapacity_iteration h0 h1 k e hit
    refine .full (Nat.lt_of_not_le fun hk => ?_)
    have hm : k / 2 ^ (q.i.val + 1) ≤ 1474 := by
      rw [pow_succ', ← Nat.div_div_eq_div_mul]
      exact (Nat.div_le_self _ _).trans (by omega)
    obtain ⟨q', hok⟩ := iteration_of_bl_le hf hg h0 h1 Nat.fib_le_fib_succ (bl_fib_succ_le hm) k
    cases hit.symm.trans hok
  | ok q' =>
    have hfib' := holdsFib_iteration hfib hit
    obtain ⟨hz, hfsm'⟩ | ⟨hpos, hfsm', hi'⟩ := iteration_control h0 h1 hit
    · rw [hz] at hg hfib'
      rw [pow_zero, Nat.div_one] at hfib'
      refine .last (Nat.le_of_not_lt fun hk => ?_) hfsm' hfib'
      obtain ⟨q1, hb, -⟩ := iteration_eq_ok.1 hit
      exact (lt_bl_fib_succ_sq (by omega)).not_ge (bl_sq_le_of_body_ok hf hg h0 h1 hb)
    · refine .more (by omega) ⟨hfsm'.trans hfsm, ?_⟩
      rwa [hi', Nat.sub_add_cancel hpos]

/-- All that a FIB run can do (R186). -/
inductive RunOutcome (k : Nat) : Except CmdFault Sequencer → Prop
  | done {q : Sequencer} (hk : k ≤ 2949) (hfk : q.fk = mkBig false (Nat.fib k)) (hn : q.fk.Norm) :
    RunOutcome k (.ok q)
  | full (hk : 2949 < k) : RunOutcome k (.error .capacity)

theorem iterate_of_render {k n : Nat} {q : Sequencer} (h : q.fsm = .render) : q.iterate k n = .ok q := by
  cases n with
  | zero => rfl
  | succ n => exact iterate_succ_of_render h

/-- With an arrow for every bit left the run comes to its end. -/
theorem iterate_outcome {k n : Nat} {q : Sequencer} (h : q.AtBit k) (hn : q.i.val < n) :
    RunOutcome k (q.iterate k n) := by
  induction n generalizing q with
  | zero => exact absurd hn (Nat.not_lt_zero _)
  | succ n ih =>
    have harrow := iteration_outcome h
    rw [iterate_succ_of_iter h.1]
    generalize q.iteration k = r at harrow ⊢
    cases harrow with
    | last hk hfsm h' =>
      rw [bind_ok, iterate_of_render hfsm]
      exact .done hk h'.fk h'.norm
    | more hi h' => exact ih h' (by omega)
    | full hk => exact .full hk

/-- The bits of k above all but the top one are the number 1 (R182). -/
theorem div_two_pow_bl_pred {k : Nat} (hk : k ≠ 0) : k / 2 ^ (bl k - 1) = 1 := by
  have hlt := lt_two_pow_bl k
  have hb : bl k = bl k - 1 + 1 := (Nat.succ_pred_eq_of_pos (bl_pos hk)).symm
  rw [hb, pow_succ'] at hlt
  exact Nat.div_eq_of_lt_le (by rw [one_mul]; exact two_pow_le_of_bl hk) hlt

/-- The initialization of R182 establishes the invariant, for every k the register KARG can hold. -/
theorem atBit_start {k : Nat} (hk : 2 < k) (hkw : bl k ≤ 32) (q : Sequencer) : (q.start k).AtBit k := by
  have hbl : 2 ≤ bl k := bl_mono (show 2 ≤ k by omega)
  have hi : (q.start k).i.val + 1 = bl k - 1 := by
    rw [start_of_two_lt hk]
    show (bl k - 2) % 32 + 1 = bl k - 1
    omega
  have hone : (mkBig false 1).Norm := mkBig_norm _ (by decide)
  rw [Sequencer.AtBit, hi, div_two_pow_bl_pred (by omega), start_of_two_lt hk]
  exact ⟨rfl, rfl, rfl, hone, hone⟩

theorem run_outcome {k : Nat} (hkw : bl k ≤ 32) (q : Sequencer) : RunOutcome k (q.run k) := by
  rcases Nat.lt_or_ge 2 k with hk | hk
  · have hat := atBit_start hk hkw q
    exact iterate_outcome hat (by rw [start_of_two_lt hk]; show (bl k - 2) % 32 < 31; omega)
  · have hfib : (if k = 0 then 0 else 1) = Nat.fib k := by interval_cases k <;> rfl
    rw [run_of_le_two hk, start_of_le_two hk, hfib]
    exact .done (by omega) rfl (mkBig_norm _ (by interval_cases k <;> decide))

/-! ### The command (R180, R187) -/

/-- With rd valid only the sequencer can still fault. -/
theorem exec_fib_of_valid {s : State} {rd : RegId} {d : BigInt} (hd : s.br rd = some d) :
    exec (.fib rd) s = s.complete (s.seq.run s.karg.toNat >>= fun q => .ok (s.render rd q)) :=
  complete_need hd _

/-- RENDER shows the decimal string of FK (R187). -/
theorem render_showsString (s : State) (rd : RegId) {q : Sequencer} (hn : q.fk.Norm) :
    (s.render rd q).finish.ShowsString (decimalString q.fk.sign q.fk.mag) :=
  writeDec_dec_showsString (s.setBr rd q.fk) hn

/-- KARG has KW = 32 bits (R32). -/
theorem bl_karg_le (s : State) : bl s.karg.toNat ≤ 32 := (lt_two_pow_iff_bl_le _ _).1 s.karg.isLt

end Sys2Proof.Machine

open Sys2Proof Sys2Proof.Machine

/-- Settles O47: by the invariant of R188, which every iteration that succeeds carries on to the next index. -/
theorem iterationDoublesTheIndex : Obligations.IterationDoublesTheIndex := by
  intro k q q' h0 h1 hf hg hit
  have h := holdsFib_iteration ⟨hf, hg, h0, h1⟩ hit
  exact ⟨h.fk, h.fk1⟩

/-- Settles O48: a run for k up to 2949 does not fault, and leaves Fib(k) in FK for RENDER. -/
theorem fibComputesFibonacci : Obligations.FibComputesFibonacci := by
  intro s rd d hd hk
  have hrun := run_outcome (bl_karg_le s) s.seq
  rw [exec_fib_of_valid hd]
  generalize s.seq.run s.karg.toNat = r at hrun ⊢
  cases hrun with
  | @done q _ hfk hn =>
    have hshow := render_showsString s rd hn
    rw [hfk, mkBig_sign, mkBig_mag, Bool.false_and] at hshow
    exact ⟨_, rfl, rfl, hshow, hfk ▸ rfl⟩
  | full hlt => exact absurd hk hlt.not_ge

/-- Settles O49: a run for k from 2950 on ends in CAPACITY, at the latest in its last iteration. -/
theorem fibBeyondCapacity : Obligations.FibBeyondCapacity := by
  intro s rd d hd hk
  have hrun := run_outcome (bl_karg_le s) s.seq
  rw [exec_fib_of_valid hd]
  generalize s.seq.run s.karg.toNat = r at hrun ⊢
  cases hrun with
  | done hle => omega
  | full _ => rfl
end

section
/-! PROOFS. Exceptions (60_exceptions.md): every command completes, a fault changes STATUS alone, and each of
the three faults is raised exactly under its own condition. -/

namespace Sys2Proof.Machine

/-! ### What a completion leaves in STATUS (R202, R226) -/

theorem Completed.of_ended {s t : State} {i : Instr} (h : Ended s i t) : Completed s t :=
  h.imp_left fun hu => ⟨i, hu⟩

/-- A completion clears BUSY, with a fault or without. -/
theorem Completed.not_busy {s t : State} (h : Completed s t) : t.status.busy = false := by
  obtain ⟨i, u, -, rfl⟩ | ⟨e, rfl⟩ := h <;> rfl

/-- A completion records a fault in ERR, ERRCODE and SERR together, or none and keeps SERR. -/
theorem Completed.fault_record {s t : State} (h : Completed s t) :
    (t.status.err = false ∧ t.status.errcode = none ∧ t.status.serr = s.status.serr) ∨
      (t.status.err = true ∧ (∃ e, t.status.errcode = some e) ∧ t.status.serr = true) := by
  obtain ⟨i, u, hu, rfl⟩ | ⟨e, rfl⟩ := h
  · exact .inl ⟨rfl, rfl, hu.sticky_eq.1⟩
  · exact .inr ⟨rfl, ⟨e, rfl⟩, rfl⟩

/-- A completion that leaves ERR = 1 is the state before it with the fault of its ERRCODE (R201). -/
theorem Completed.eq_faulted {s t : State} (h : Completed s t) (herr : t.status.err = true) :
    ∃ e, t.status.errcode = some e ∧ t = s.faulted e := by
  obtain ⟨i, u, -, rfl⟩ | ⟨e, rfl⟩ := h
  · cases herr
  · exact ⟨e, rfl, rfl⟩

/-- ERRCODE after a completion is the fault of the command's effects. -/
theorem errcode_of_complete {s t : State} {m : Except CmdFault State} (h : s.complete m = .next t)
    (e : CmdFault) : t.status.errcode = some e ↔ m = .error e := by
  obtain ⟨u, rfl, rfl⟩ | ⟨e', rfl, rfl⟩ := complete_eq_next.1 h <;> simp

/-! ### Illegal words (R203) -/

/-- A word with a reserved opcode or a must-be-zero bit set does not decode, so its completion faults. -/
theorem runLatched_illegal {s : State} (h : ¬ assignedOpcode s.latch ∨ mustBeZeroViolated s.latch) :
    runLatched s = .next (s.faulted .illegalCmd) := by
  obtain ⟨hreserved, hmbz⟩ := illegalWordsExactly s.latch
  rcases h with h | h
  · exact runLatched_error (hreserved.2 h)
  · exact runLatched_error (hmbz.2 h)

/-! ### Which fault a datapath function raises (R204, R205) -/

theorem capacity_if_eq_error {α : Type} {c : Prop} [Decidable c] {x : α} {e : CmdFault} :
    (if c then (.error .capacity : Except CmdFault α) else .ok x) = .error e ↔ e = .capacity ∧ c := by
  split_ifs with h <;> simp [h, eq_comm]

theorem sized_eq_error {α : Type} {n : Nat} {x : α} {e : CmdFault} :
    sized n x = .error e ↔ e = .capacity ∧ Config.MAXW < n := capacity_if_eq_error

section Datapath

variable {a b x : BigInt} {e : CmdFault}

theorem addmag_eq_error (ha : a.Norm) (hb : b.Norm) :
    addmag a b = .error e ↔ e = .capacity ∧ ¬ sumFits a.mag b.mag := by
  rw [addmag_eq ha hb, capacity_if_eq_error, sumFits, not_le]

theorem sadd_eq_error (ha : a.Norm) (hb : b.Norm) :
    sadd a b = .error e ↔ e = .capacity ∧ a.sign = b.sign ∧ ¬ sumFits a.mag b.mag := by
  rw [sadd_eq ha hb, capacity_if_eq_error, sumFits, not_le]

theorem ssub_eq_error (ha : a.Norm) (hb : b.Norm) :
    ssub a b = .error e ↔ e = .capacity ∧ a.sign = (neg b).sign ∧ ¬ sumFits a.mag b.mag := by
  rw [ssub_eq ha hb, capacity_if_eq_error, sumFits, not_le]

theorem mul_eq_error (ha : a.Norm) (hb : b.Norm) :
    mul a b = .error e ↔ e = .capacity ∧ ¬ productFits a.mag b.mag := by
  rw [mul_eq ha hb, capacity_if_eq_error, productFits, not_le]

theorem submag_eq_error : submag a b = .error e ↔ e = .invalidOperand ∧ a.mag < b.mag := by
  rw [submag_eq]
  split_ifs with h <;> simp [h, eq_comm]

/-- A normalized register with all MAXW words has a non-zero top word, so no word can be pushed below it. -/
theorem pushWord_eq_error (hx : x.Norm) {w : Word} :
    pushWord x w = .error e ↔ e = .capacity ∧ x.len = Config.MAXW := by
  rw [pushWord, sized_eq_error]
  refine and_congr_right fun _ => ⟨fun hgt => ?_, fun hlen => ?_⟩
  · have hpush := nw_push_le x w
    have hmax := hx.2.1
    omega
  · by_contra hle
    have hlt := (nw_le_iff (by decide)).1 (not_lt.1 hle)
    have hmag : x.mag < 2 ^ (32 * 63) := by
      simp only [Config.MAXW, two_pow_words_succ 63] at hlt
      omega
    have hnw := (nw_le_iff (by decide)).2 hmag
    rw [← Norm.len_eq hx, hlen] at hnw
    exact absurd hnw (by decide)

theorem shl_eq_error (hx : x.Norm) {n : Nat} (hlo : 1 ≤ n) (hhi : n ≤ 31) :
    shl x n = .error e ↔ e = .capacity ∧ ¬ shiftFits x n := by
  rw [shl_eq hx hlo hhi, capacity_if_eq_error, shiftFits, not_not]

end Datapath

/-- The sequencer faults with CAPACITY only (R186). -/
theorem run_ne_invalidOperand {k : Nat} (hkw : bl k ≤ 32) (q : Sequencer) :
    q.run k ≠ .error .invalidOperand := by
  have hrun := run_outcome hkw q
  generalize q.run k = r at hrun
  cases hrun <;> simp

/-! ### The faults of a command, exactly (R204, R205) -/

/-- SUBM with a first magnitude smaller than the second (R131, R204). -/
def SubtractsLarger (s : State) (i : Instr) : Prop :=
  ∃ rd rs1 rs2 a b, i = .subm rd rs1 rs2 ∧ s.br rs1 = some a ∧ s.br rs2 = some b ∧ a.mag < b.mag

theorem not_subtractsLarger {s : State} {i : Instr} (hi : ∀ rd rs1 rs2, i ≠ .subm rd rs1 rs2) :
    ¬ SubtractsLarger s i :=
  fun ⟨rd, rs1, rs2, _, _, h, _⟩ => hi rd rs1 rs2 h

/-- What faults the effects `m` of command `i` raise, where `rs` are the registers still to be checked: each
of the two faults of an executed command exactly under its condition. -/
structure FaultsExactly (s : State) (i : Instr) (rs : List RegId) (m : Except CmdFault State) : Prop where
  invalid : m = .error .invalidOperand ↔ (∃ r ∈ rs, s.br r = none) ∨ SubtractsLarger s i
  capacity : i.wellFormed = true → i.isFib = false → (∀ r ∈ rs, (s.br r).isSome = true) →
    (m = .error .capacity ↔ i.exceedsCapacity s)

section FaultsExactly

variable {s : State} {i : Instr} {rs : List RegId}

/-- The check of `r` raises INVALID_OPERAND or leaves the rest to decide. -/
theorem FaultsExactly.need {r : RegId} {f : BigInt → Except CmdFault State}
    (h : ∀ x, s.br r = some x → FaultsExactly s i rs (f x)) :
    FaultsExactly s i (r :: rs) (s.need r >>= f) := by
  cases hr : s.br r with
  | none => exact ⟨by simp [hr], fun _ _ hvalid => by simp [hr] at hvalid⟩
  | some x =>
    obtain ⟨hinvalid, hcapacity⟩ := h x hr
    rw [need_of_valid hr, bind_ok]
    exact ⟨by simpa [hr] using hinvalid, by simpa [hr] using hcapacity⟩

/-- Past its checks a command faults as its datapath function does. -/
theorem FaultsExactly.datapath {α : Type} {m : Except CmdFault α} {f : α → State}
    (hinvalid : m = .error .invalidOperand ↔ SubtractsLarger s i)
    (hcapacity : i.wellFormed = true → i.isFib = false → (m = .error .capacity ↔ i.exceedsCapacity s)) :
    FaultsExactly s i [] (m >>= fun x => .ok (f x)) := by
  refine ⟨?_, fun hwf hfib _ => ?_⟩
  · simpa [bind_eq_error] using hinvalid
  · simpa [bind_eq_error] using hcapacity hwf hfib

/-- A command without a datapath function faults at its checks or not at all. -/
theorem FaultsExactly.ok {u : State} (hi : ∀ rd rs1 rs2, i ≠ .subm rd rs1 rs2)
    (hcap : ¬ i.exceedsCapacity s) : FaultsExactly s i [] (.ok u) :=
  ⟨by simp [not_subtractsLarger hi], fun _ _ _ => by simp [hcap]⟩

/-- A command whose datapath function raises CAPACITY alone, exactly when `c` holds. -/
theorem FaultsExactly.onlyCapacity {α : Type} {m : Except CmdFault α} {f : α → State} {c : Prop}
    (hi : ∀ rd rs1 rs2, i ≠ .subm rd rs1 rs2) (hm : ∀ e, m = .error e ↔ e = .capacity ∧ c)
    (hc : c ↔ i.exceedsCapacity s) : FaultsExactly s i [] (m >>= fun x => .ok (f x)) := by
  refine .datapath ?_ fun _ _ => ?_
  · simp [hm, not_subtractsLarger hi]
  · simp [hm, hc]

/-- ADD, SUB, ADDM and MUL, by the condition `c` on the operands under which the datapath raises CAPACITY. -/
theorem FaultsExactly.binary {α : Type} {rd rs1 rs2 : RegId} {op : BigInt → BigInt → Except CmdFault α}
    {res : α → BigInt} {c : BigInt → BigInt → Prop} (hnorm : s.RegsNorm)
    (hi : ∀ rd rs1 rs2, i ≠ .subm rd rs1 rs2)
    (hop : ∀ {a b e}, a.Norm → b.Norm → (op a b = .error e ↔ e = .capacity ∧ c a b))
    (hc : ∀ {a b}, s.br rs1 = some a → s.br rs2 = some b → (c a b ↔ i.exceedsCapacity s)) :
    FaultsExactly s i [rs1, rs2, rd] (s.binary rd rs1 rs2 op res) :=
  .need fun _ ha => .need fun _ hb => .need fun _ _ =>
    .onlyCapacity hi (fun _ => hop (hnorm _ _ ha) (hnorm _ _ hb)) (hc ha hb)

/-- SHL: the amount 0 cannot fault, any other as the shifter does; a well-formed amount is at most 31. -/
theorem FaultsExactly.shift {rd rs1 : RegId} {x : BigInt} {n : Nat} (hnorm : s.RegsNorm)
    (hx : s.br rs1 = some x) :
    FaultsExactly s (.shl rd rs1 n) []
      (if n = 0 then .ok s else shl x n >>= fun y => .ok (s.setBr rd y)) := by
  split
  · next hn => exact .ok nofun (by simp [Instr.exceedsCapacity, hn])
  · next hn =>
    refine .datapath ?_ fun hwf _ => ?_
    · simp [shl, sized_eq_error, not_subtractsLarger]
    · have hhi : n ≤ 31 := Nat.le_of_lt_succ (of_decide_eq_true hwf)
      rw [shl_eq_error (hnorm _ _ hx) (Nat.pos_of_ne_zero hn) hhi]
      simp [Instr.exceedsCapacity, hx, hn]

end FaultsExactly

/-- Every command raises INVALID_OPERAND and CAPACITY exactly under their conditions. -/
theorem exec_faultsExactly {s : State} (hnorm : s.RegsNorm) (i : Instr) :
    ∃ m, exec i s = s.complete m ∧ FaultsExactly s i i.needs m := by
  cases i with
  | nop => exact ⟨.ok s, rfl, .ok nofun id⟩
  | alloc rd => exact ⟨.ok _, rfl, .ok nofun id⟩
  | free rd => exact ⟨_, rfl, .need fun _ _ => .ok nofun id⟩
  | copy rd rs1 => exact ⟨_, rfl, .need fun _ _ => .need fun _ _ => .ok nofun id⟩
  | swap rd rs1 => exact ⟨_, rfl, .need fun _ _ => .need fun _ _ => .ok nofun id⟩
  | pushw rd =>
    exact ⟨_, rfl, .need fun _ hx => .onlyCapacity nofun (fun _ => pushWord_eq_error (hnorm _ _ hx))
      (by simp [Instr.exceedsCapacity, hx])⟩
  | rdw rs1 imm16 => exact ⟨_, rfl, .need fun _ _ => .ok nofun id⟩
  | rdhdr rs1 => exact ⟨.ok _, rfl, .ok nofun id⟩
  | bitlen rs1 => exact ⟨_, rfl, .need fun _ _ => .ok nofun id⟩
  | cmp rs1 rs2 => exact ⟨_, rfl, .need fun _ _ => .need fun _ _ => .ok nofun id⟩
  | add rd rs1 rs2 =>
    exact ⟨_, exec_add s rd rs1 rs2, .binary hnorm nofun sadd_eq_error fun ha hb => by
      simp [Instr.exceedsCapacity, ha, hb]⟩
  | sub rd rs1 rs2 =>
    exact ⟨_, exec_sub s rd rs1 rs2, .binary hnorm nofun ssub_eq_error fun ha hb => by
      simp [Instr.exceedsCapacity, ha, hb, neg_sign]⟩
  | addm rd rs1 rs2 =>
    exact ⟨_, exec_addm s rd rs1 rs2, .binary hnorm nofun addmag_eq_error fun ha hb => by
      simp [Instr.exceedsCapacity, ha, hb]⟩
  | subm rd rs1 rs2 =>
    refine ⟨_, rfl, .need fun a ha => .need fun b hb => .need fun _ _ => .datapath ?_ fun _ _ => ?_⟩
    · simp [submag_eq_error, SubtractsLarger, ha, hb]
    · simp [submag_eq_error, Instr.exceedsCapacity]
  | neg rd rs1 => exact ⟨_, rfl, .need fun _ _ => .need fun _ _ => .ok nofun id⟩
  | mul rd rs1 rs2 =>
    exact ⟨_, exec_mul s rd rs1 rs2, .binary hnorm nofun mul_eq_error fun ha hb => by
      simp [Instr.exceedsCapacity, ha, hb]⟩
  | shl rd rs1 n => exact ⟨_, rfl, .need fun _ hx => .need fun _ _ => .shift hnorm hx⟩
  | todec rs1 => exact ⟨_, rfl, .need fun _ _ => .ok nofun id⟩
  | fib rd =>
    refine ⟨_, rfl, .need fun _ _ => .datapath ?_ nofun⟩
    simp [run_ne_invalidOperand (bl_karg_le s), not_subtractsLarger]

end Sys2Proof.Machine

open Sys2Proof Sys2Proof.Machine

/-- Settles O21: a command answers with a completion, whose record of the fault is one or the other. -/
theorem everyCommandCompletes : Obligations.EveryCommandCompletes := by
  intro i s
  obtain ⟨t, h⟩ := exec_is_next i s
  have hc := Completed.of_ended (exec_ended h)
  exact ⟨t, h, hc.not_busy, hc.done, hc.fault_record⟩

/-- Settles O22: an executed command and the completion of any latched word are both completions. -/
theorem faultsAreAllOrNothing : Obligations.FaultsAreAllOrNothing := by
  refine ⟨fun i s t h => (Completed.of_ended (exec_ended h)).eq_faulted, fun s t hs h => ?_⟩
  rw [step_of_completesNext hs] at h
  exact (runLatched_completed h).eq_faulted

/-- Settles O23: ERRCODE is the fault of the command's effects. -/
theorem invalidOperandExactly : Obligations.InvalidOperandExactly := by
  intro i s t hnorm h
  obtain ⟨m, hm, hfaults⟩ := exec_faultsExactly hnorm i
  exact (errcode_of_complete (hm ▸ h) _).trans hfaults.invalid

/-- Settles O24: ERRCODE is the fault of the command's effects. -/
theorem capacityExactly : Obligations.CapacityExactly := by
  intro i s t hwf hfib hnorm hvalid h
  obtain ⟨m, hm, hfaults⟩ := exec_faultsExactly hnorm i
  exact (errcode_of_complete (hm ▸ h) _).trans (hfaults.capacity hwf hfib hvalid)

/-- Settles O6: the completion decodes the latched word before it looks at any register. -/
theorem illegalWordRaisesIllegalCmd : Obligations.IllegalWordRaisesIllegalCmd := by
  intro s hs hillegal
  rw [step_of_completesNext hs]
  exact runLatched_illegal hillegal
end

section
/-! PROOFS. Reset and hazards (70_reset_and_hazards.md): issue, host accesses while a command is in flight,
that it completes after them, and operand aliasing. -/

namespace Sys2Proof.Machine

/-! ### Writes of the window, by BUSY (R225, R227) -/

/-- A write of CMD while idle is an issue (R225). -/
theorem serveWrite_cmd_of_idle {s : State} (hb : s.status.busy = false) (c : Word) :
    s.serveWrite 0x000 c = s.issue c := by
  simp [State.serveWrite, State.unlessBusy, hb]

/-- A write of CMD, DATA or KARG while BUSY is dropped (R227). -/
theorem serveWrite_dropped {s : State} (hb : s.status.busy = true) (v : Word) {off : Nat}
    (hoff : off = 0x000 ∨ off = 0x008 ∨ off = 0x00C) : s.serveWrite off v = s.overrun := by
  have hbusy (t : State) : s.unlessBusy t = s.overrun := if_pos hb
  rcases hoff with rfl | rfl | rfl
  · exact hbusy _
  · exact hbusy _
  · exact hbusy _

/-- Only CMD, DATA, KARG and CTRL take a write (R53). -/
theorem serveWrite_readOnly (s : State) (v : Word) {off : Nat} (hcmd : off ≠ 0x000) (hdata : off ≠ 0x008)
    (hkarg : off ≠ 0x00C) (hctrl : off ≠ 0x014) : s.serveWrite off v = s := by
  rw [State.serveWrite, if_neg hcmd, if_neg hdata, if_neg hkarg, if_neg hctrl]

/-! ### Reads while busy (R228) -/

theorem whenIdle_of_busy {s : State} (hb : s.status.busy = true) (v : Word) :
    s.whenIdle v = Config.freeWord s.draws := if_pos hb

/-- DATA, DEC_LEN and the DEC window read as the free value of this read. -/
theorem readValue_unspecified {s : State} (hb : s.status.busy = true) {off : Nat}
    (hoff : off = 0x008 ∨ off = 0x010 ∨ 0x400 ≤ off) : s.readValue off = Config.freeWord s.draws := by
  rcases hoff with rfl | rfl | hdec
  · exact whenIdle_of_busy hb s.data
  · exact whenIdle_of_busy hb s.decLen
  · unfold State.readValue
    iterate 6 rw [if_neg (by omega)]
    rw [if_pos hdec, whenIdle_of_busy hb]

/-! ### What an access leaves as at issue (R226, R227) -/

/-- `s.InFlight u`: the command in flight in `s` is in flight in `u` with the same inputs: `u` has BUSY = 1
and differs from `s` in STATUS and the model's own fields only. -/
def State.InFlight (s u : State) : Prop :=
  u.status.busy = true ∧
    u = { s with status := u.status, input := u.input, readLog := u.readLog, draws := u.draws }

theorem State.InFlight.refl {s : State} (hb : s.status.busy = true) : s.InFlight s := ⟨hb, rfl⟩

theorem State.InFlight.trans {s u t : State} (hsu : s.InFlight u) (hut : u.InFlight t) : s.InFlight t := by
  obtain ⟨-, hu⟩ := hsu
  obtain ⟨hb, ht⟩ := hut
  exact ⟨hb, by rw [ht, hu]⟩

/-- The inputs of the command in flight: the word, DATA, KARG, the registers and the decimal output. -/
theorem State.InFlight.inputs_eq {s u : State} (h : s.InFlight u) :
    u.latch = s.latch ∧ u.data = s.data ∧ u.karg = s.karg ∧ (∀ r, u.br r = s.br r) ∧
      u.decLen = s.decLen ∧ u.decBuf = s.decBuf := by
  obtain ⟨-, hu⟩ := h
  rw [hu]
  exact ⟨rfl, rfl, rfl, fun _ => rfl, rfl, rfl⟩

/-- While BUSY a write has an effect on STATUS at most, wherever it goes. -/
theorem serveWrite_of_busy {s : State} (hb : s.status.busy = true) (off : Nat) (v : Word) :
    ∃ st : Status, st.busy = true ∧ s.serveWrite off v = { s with status := st } := by
  by_cases hdropped : off = 0x000 ∨ off = 0x008 ∨ off = 0x00C
  · exact ⟨s.status.overrun, hb, serveWrite_dropped hb v hdropped⟩
  · obtain ⟨hcmd, hdata, hkarg⟩ : off ≠ 0x000 ∧ off ≠ 0x008 ∧ off ≠ 0x00C := by tauto
    by_cases hctrl : off = 0x014
    · rw [hctrl, serveWrite_ctrl]
      split
      · exact ⟨s.status.clearSticky, hb, rfl⟩
      · exact ⟨s.status, hb, rfl⟩
    · exact ⟨s.status, hb, serveWrite_readOnly s v hcmd hdata hkarg hctrl⟩

/-- A step that leaves the command in flight leaves its inputs. -/
theorem inFlight_of_step {s t : State} (hb : s.status.busy = true) (h : step s = .next t)
    (ht : t.status.busy = true) : s.InFlight t := by
  have hrun {u : State} (h : runLatched u = .next t) : ¬ t.status.busy = true := by
    simp [(runLatched_completed h).not_busy]
  rcases step_cases h with ⟨-, -, hdone⟩ | ⟨e, es, -, hserved⟩
  · exact absurd ht (hrun hdone)
  · rcases hserved with
      ⟨a, -, -, -, ⟨-, rfl⟩ | ⟨v, -, rfl⟩⟩ | ⟨-, -, hdone⟩ | ⟨-, -, rfl⟩ | ⟨-, rfl⟩
    · exact ⟨hb, rfl⟩
    · obtain ⟨st, hst, hw⟩ := serveWrite_of_busy (s := { s with input := es }) hb a.offset v
      exact hw ▸ ⟨hst, rfl⟩
    · exact absurd ht (hrun hdone)
    · exact ⟨hb, rfl⟩
    · cases ht

/-! ### The command in flight completes (R226, R230) -/

/-- A well-formed access: 32 bits wide, aligned, in the window (R58). -/
def Event.WellFormedAccess (e : Event) : Prop :=
  ∃ off, off < 2048 ∧ off % 4 = 0 ∧ (e = hostRead off ∨ ∃ v, e = hostWrite off v)

/-- A well-formed access while BUSY is served, and the command stays in flight. -/
theorem step_access_of_busy {s : State} {e : Event} {es : List Event} (hb : s.status.busy = true)
    (hi : s.input = e :: es) (he : e.WellFormedAccess) :
    ∃ u, step s = .next u ∧ u.input = es ∧ s.InFlight u := by
  obtain ⟨off, hwin, ha, rfl | ⟨v, rfl⟩⟩ := he
  · exact ⟨_, step_hostRead hwin ha hi, rfl, hb, rfl⟩
  · obtain ⟨st, hst, hw⟩ := serveWrite_of_busy (s := { s with input := es }) hb off v
    exact ⟨_, hw ▸ step_hostWrite hwin ha hi, rfl, hst, rfl⟩

/-- A run begins with a step. -/
theorem run_succ_of_step {M : Host.Core} {s u : M.State} (h : M.step s = .next u) (n : Nat) :
    M.run (n + 1) s = M.run n u := by
  rw [Host.Core.run, h]

/-- All the accesses to come are served, and the machine goes on from a state with the command still in
flight. -/
theorem run_accesses_of_busy {s : State} (hb : s.status.busy = true)
    (hes : ∀ e ∈ s.input, e.WellFormedAccess) :
    ∃ u, u.input = [] ∧ s.InFlight u ∧ ∀ n, core.run (s.input.length + n) s = core.run n u := by
  induction hi : s.input generalizing s with
  | nil => exact ⟨s, hi, .refl hb, fun n => by rw [List.length_nil, Nat.zero_add]⟩
  | cons e es ih =>
    rw [hi] at hes
    obtain ⟨he, hes⟩ := List.forall_mem_cons.1 hes
    obtain ⟨t, hst, rfl, hin⟩ := step_access_of_busy hb hi he
    obtain ⟨u, hu, htu, hrun⟩ := ih hin.1 hes rfl
    refine ⟨u, hu, hin.trans htu, fun n => ?_⟩
    rw [List.length_cons, Nat.add_right_comm, run_succ_of_step (M := core) hst, hrun]

/-- The completion of the command in flight always answers (R202, R226). -/
theorem runLatched_is_next (s : State) : ∃ t, runLatched s = .next t := by
  cases hd : decode s.latch with
  | ok i => exact runLatched_ok hd ▸ exec_is_next i s
  | error e => exact ⟨_, runLatched_error hd⟩

/-! ### Operand aliasing (R152, R231) -/

/-- Effects with the same fault, or with the same content of the one's register `r` and the other's `r'`. -/
inductive SameResult (r r' : RegId) : Except CmdFault State → Except CmdFault State → Prop where
  | ok {u u' : State} (h : u.br r = u'.br r') : SameResult r r' (.ok u) (.ok u')
  | fault (e : CmdFault) : SameResult r r' (.error e) (.error e)

section Aliasing

variable {s s' : State} {rd rs1 rs2 rd' rs1' rs2' : RegId}

theorem SameResult.setBr (x : BigInt) : SameResult rd rd' (.ok (s.setBr rd x)) (.ok (s'.setBr rd' x)) :=
  .ok (by simp)

/-- One computation before the effects gives one value or one fault. -/
theorem SameResult.bind {α : Type} (m : Except CmdFault α) {f f' : α → Except CmdFault State}
    (h : ∀ x, SameResult rd rd' (f x) (f' x)) : SameResult rd rd' (m >>= f) (m >>= f') := by
  cases m with
  | ok x => exact h x
  | error e => exact .fault e

/-- The checks of two registers of one content are one check. -/
theorem SameResult.need {r r' : RegId} (hr : s.br r = s'.br r') {f f' : BigInt → Except CmdFault State}
    (h : ∀ x, SameResult rd rd' (f x) (f' x)) : SameResult rd rd' (s.need r >>= f) (s'.need r' >>= f') := by
  have hneed : s.need r = s'.need r' := by rw [State.need, State.need, hr]
  rw [hneed]
  exact .bind _ h

theorem SameResult.binary {α : Type} (hrd : s.br rd = s'.br rd') (hrs1 : s.br rs1 = s'.br rs1')
    (hrs2 : s.br rs2 = s'.br rs2') (op : BigInt → BigInt → Except CmdFault α) (res : α → BigInt) :
    SameResult rd rd' (s.binary rd rs1 rs2 op res) (s'.binary rd' rs1' rs2' op res) :=
  .need hrs1 fun a => .need hrs2 fun b => .need hrd fun _ => .bind (op a b) fun x => .setBr (res x)

theorem SameResult.shift (hrd : s.br rd = s'.br rd') (x : BigInt) (n : Nat) :
    SameResult rd rd' (if n = 0 then .ok s else shl x n >>= fun y => .ok (s.setBr rd y))
      (if n = 0 then .ok s' else shl x n >>= fun y => .ok (s'.setBr rd' y)) := by
  split
  · exact .ok hrd
  · exact .bind (shl x n) .setBr

/-- Completions of such effects have one ERRCODE and one destination. -/
theorem SameResult.complete {m m' : Except CmdFault State} {t t' : State} (h : SameResult rd rd' m m')
    (hrd : s.br rd = s'.br rd') (ht : s.complete m = .next t) (ht' : s'.complete m' = .next t') :
    t.status.errcode = t'.status.errcode ∧ t.br rd = t'.br rd' := by
  cases h with
  | ok h =>
    cases ht
    cases ht'
    exact ⟨rfl, h⟩
  | fault e =>
    cases ht
    cases ht'
    exact ⟨rfl, hrd⟩

end Aliasing

end Sys2Proof.Machine

open Sys2Proof Sys2Proof.Machine

/-- Settles O7: an idle machine issues any word, and decodes it at its completion only. -/
theorem issueLatchesTheWord : Obligations.IssueLatchesTheWord := by
  intro s c es hi hb
  refine ⟨({ s with input := es } : State).issue c, ?_, rfl, fun hes hillegal => ?_⟩
  · rw [step_hostWrite (by decide) (by decide) hi, serveWrite_cmd_of_idle (s := { s with input := es }) hb]
  · rw [step_of_completesNext ⟨rfl, hes⟩]
    exact runLatched_illegal hillegal

/-- Settles O8, by the offset written; no step that leaves the command in flight changes its inputs. -/
theorem writesWhileBusyAreDropped : Obligations.WritesWhileBusyAreDropped := by
  refine ⟨fun s off v es hb hoff hi => ?_, fun s v es _ hi hv => ?_, fun s v es _ hi hv => ?_,
    fun s off v es hwin ha hcmd hdata hkarg hctrl hi => ?_, fun s t hb h ht => ?_⟩
  · obtain ⟨hwin, ha⟩ : off < Config.WINDOW ∧ off % 4 = 0 := by rcases hoff with rfl | rfl | rfl <;> decide
    rw [step_hostWrite hwin ha hi, serveWrite_dropped (s := { s with input := es }) hb v hoff]
    rfl
  · obtain ⟨hclear, -, -⟩ := ctrlClearsTheStickyBits s es
    exact hclear v hi hv
  · obtain ⟨-, hkeep, -⟩ := ctrlClearsTheStickyBits s es
    exact hkeep v hi hv
  · rw [step_hostWrite hwin ha hi, serveWrite_readOnly _ v hcmd hdata hkarg hctrl]
  · obtain ⟨-, hdata, hkarg, -⟩ := (inFlight_of_step hb h ht).inputs_eq
    exact ⟨hdata, hkarg⟩

/-- Settles O12: the value is what the offset holds, by the register map and BUSY. -/
theorem readsWhileBusy : Obligations.ReadsWhileBusy := by
  intro s es off hb hwin ha hi
  refine ⟨_, step_hostRead_of_readValue hwin ha hi rfl, ?_, ?_, ?_, ?_, ?_, readValue_unspecified hb⟩
  · rintro rfl; rfl
  · rintro rfl; rfl
  · rintro rfl; rfl
  · rintro rfl; rfl
  · rintro (rfl | rfl | ⟨hlo, hhi⟩)
    · rfl
    · rfl
    · exact readValue_reserved s hlo (Nat.le_of_lt_succ hhi)

/-- Settles O20, by induction on the accesses to come; with none left the next step is the completion. -/
theorem commandInFlightCompletes : Obligations.CommandInFlightCompletes := by
  intro s hb hes
  obtain ⟨u, hu, hin, hrun⟩ := run_accesses_of_busy hb hes
  obtain ⟨hlatch, hdata, hkarg, hbr, hlen, hbuf⟩ := hin.inputs_eq
  obtain ⟨t, ht⟩ := runLatched_is_next u
  have hlast : core.run (s.input.length + 1) s = .next t :=
    (hrun 1).trans (run_succ_of_step (M := core) ((step_no_event_busy hu hin.1).trans ht) 0)
  have hdone := runLatched_completed ht
  exact ⟨u, t, hrun 0, hu, hin.1, hlatch, hdata, hkarg, hbr, hlen, hbuf, hlast, hdone.not_busy, hdone.done⟩

/-- Settles O44, by the command: the checks and the datapath see the contents alone. -/
theorem aliasingIsNoHazard : Obligations.AliasingIsNoHazard := by
  intro s s' t t' rd rs1 rs2 rd' rs1' rs2' op hrd hrs1 hrs2 hop ht ht'
  simp only [List.mem_cons, List.not_mem_nil, or_false] at hop
  rcases hop with (rfl | rfl | rfl | rfl | rfl) | rfl | rfl | ⟨n, rfl⟩
  · exact (SameResult.binary hrd hrs1 hrs2 sadd id).complete hrd ht ht'
  · exact (SameResult.binary hrd hrs1 hrs2 ssub id).complete hrd ht ht'
  · exact (SameResult.binary hrd hrs1 hrs2 addmag (mkBig false)).complete hrd ht ht'
  · exact (SameResult.binary hrd hrs1 hrs2 submag (mkBig false)).complete hrd ht ht'
  · exact (SameResult.binary hrd hrs1 hrs2 mul id).complete hrd ht ht'
  · exact SameResult.complete (.need hrs1 fun x => .need hrd fun _ => .setBr x) hrd ht ht'
  · exact SameResult.complete (.need hrs1 fun x => .need hrd fun _ => .setBr (neg x)) hrd ht ht'
  · exact SameResult.complete (.need hrs1 fun x => .need hrd fun _ => .shift hrd x n) hrd ht ht'
end
